-- ==== Sys2Proof/Word.lean ====
section
/-! DEFINITION. The word types of the digest engine and zero-extension (00_scope.md R10, R11).
Every value is unsigned; `+`, `*`, `^^^`, `<<<` and `>>>` of `BitVec` are the modular operations of R11. -/

namespace Sys2Proof

/-- A byte is 8 bits (R10). -/
abbrev Byte := BitVec 8

/-- The accumulator and arithmetic width, `WORD` of R9. -/
abbrev U64 := BitVec 64

/-- `zext_64(v)`: `v` as a 64-bit value, upper bits 0 (R11). -/
def zext64 {w : Nat} (v : BitVec w) : U64 := v.zeroExtend 64

end Sys2Proof
end

