-- ==== Sys2Proof/Config.lean ====
section
/-! DEFINITION. The engine's parameters (00_scope.md R9) and the values the spec leaves open.

A free value is an opaque constant: no proof can see what it is, so whatever is proved holds for every value. Each takes
the number of the draw (the state's `freeCount`), so two draws need not agree. -/

namespace Sys2Proof.Config

/-- `BLOCK_BYTES` of R9. -/
@[simp] abbrev blockBytes : Nat := 16

/-- `TAIL_CAP` of R9: the tail buffer's capacity (C3). -/
@[simp] abbrev tailCap : Nat := 16

/-- `N_MAX` of R9: the largest byte count of one WRITE (D4). -/
@[simp] abbrev nMax : Nat := 16

/-- `DIGEST_BYTES` of R9: the output size in bytes, which SIZE returns. -/
@[simp] abbrev digestBytes : Nat := 16

/-- The byte at an offset of the tail where the spec says "any byte values": after reset (R35, R170, U5) and after
BLOCK_PRECONDITION (R34, U2). DESIGN CHOICE, safe: notes/assumptions/1.md. -/
opaque freeTailByte : Nat → Nat → Byte

/-- `seed` after BLOCK_PRECONDITION (R34, U2). DESIGN CHOICE, safe: notes/assumptions/2.md. -/
opaque freeSeed : Nat → BitVec 32

/-- `h1` after BLOCK_PRECONDITION (R34, U2). DESIGN CHOICE, safe: notes/assumptions/2.md. -/
opaque freeH1 : Nat → U64

/-- `h2` after BLOCK_PRECONDITION (R34, U2). DESIGN CHOICE, safe: notes/assumptions/2.md. -/
opaque freeH2 : Nat → U64

/-- `tailLen` after BLOCK_PRECONDITION (R34, U2). DESIGN CHOICE, safe: notes/assumptions/2.md. -/
opaque freeTailLen : Nat → BitVec 5

/-- `totalLen` after BLOCK_PRECONDITION (R34, U2). DESIGN CHOICE, safe: notes/assumptions/2.md. -/
opaque freeTotalLen : Nat → U64

end Sys2Proof.Config
end

