-- ==== Sys2Proof/Machine/Port.lean ====
section
/-! DEFINITION. The command port: what the host sends in one transaction and what the engine answers (30_encoding.md R60). -/

namespace Sys2Proof.Machine

/-- The host's part of one transaction: the command word CMD and the data beat DATA (R60). -/
structure Command where
  cmd  : BitVec 64
  data : BitVec 128
  deriving DecidableEq, Repr

/-- RSP_KIND (R60, R66). `3` is never produced, so it has no constructor (U7). -/
inductive RspKind where
  | ack | value | err
  deriving DecidableEq, Repr

/-- The two bits of RSP_KIND (R60). -/
def RspKind.code : RspKind → BitVec 2
  | .ack => 0
  | .value => 1
  | .err => 2

/-- The engine's part of one transaction: RSP_KIND and RSP (R60, R66). -/
structure Response where
  kind : RspKind
  rsp  : BitVec 128
  deriving DecidableEq, Repr

end Sys2Proof.Machine
end

