-- ==== Sys2Proof/Machine/State.lean ====
section
/-! DEFINITION. The engine's state (10_state.md), the reasons a step could stop, and the state after reset. -/

namespace Sys2Proof.Machine

/-- What makes the model stop. No rule of the spec stops the engine: both its faults are states it enters and goes on
answering from (60_exceptions.md R153, R155), so this type has no constructor. Safe: notes/assumptions/7.md. -/
inductive Fault where
  deriving DecidableEq, Repr

/-- What the model has no meaning for. -/
inductive Refusal where
  /-- Raised by an arm of `exec` for an instruction that has no meaning yet. No arm raises it. Safe. -/
  | notModelled (mnemonic : String)
  deriving DecidableEq, Repr

/-- The engine's fault causes (60_exceptions.md R150). Cause 0 is "no fault"; 3 to 7 are never raised (U7). -/
inductive FaultCause where
  /-- The command word is not legal (R151). -/
  | illegalCommand
  /-- The tail was dispatched with `tailLen` not 16 (R152). -/
  | blockPrecondition
  deriving DecidableEq, Repr

/-- The digest state, a self-contained value (10_state.md R20, R36). -/
structure Digest where
  /-- The seed of the current digest (R22). -/
  seed : BitVec 32
  /-- The accumulators (R23). -/
  h1 : U64
  h2 : U64
  /-- The tail buffer (R24, C3). -/
  tail : Vector Byte 16
  /-- How many leading bytes of the tail are pending; 5 bits of storage (R20, R25). -/
  tailLen : BitVec 5
  /-- The count of stream bytes, modulo 2^64 (R26). -/
  totalLen : U64
  deriving DecidableEq, Repr

/-- The engine and its model run. `digest`, `status` and `fcmd` are the engine's state (R20). The others are the host's
side of the run (R29, R173; DESIGN CHOICE: notes/assumptions/4.md, 5.md), but for `freeCount`, which is the model's own
(notes/assumptions/2.md). -/
structure State where
  /-- The index of the next command (R29). -/
  pc : Nat
  digest : Digest
  /-- STATUS, 32 bits, as a whole (R30). -/
  status : BitVec 32
  /-- FCMD, the word of the command that faulted (R31). -/
  fcmd : BitVec 64
  /-- The host's command sequence `prog[0..L)` of this run (R29, R173). -/
  prog : List Command
  /-- The responses of this run, oldest first (R66, R173). -/
  responses : List Response
  /-- The command sequences of the host's later runs, a reset before each (R170, R173). -/
  nextRuns : List (List Command)
  /-- How many times a free value has been drawn. -/
  freeCount : Nat
  deriving DecidableEq, Repr

/-- The digest state after reset (R35). The tail bytes are unspecified: free values, drawn under number `k`. -/
def Digest.reset (k : Nat) : Digest where
  seed := 0
  h1 := 0
  h2 := 0
  tail := Vector.ofFn fun o => Config.freeTailByte k o.val
  tailLen := 0
  totalLen := 0

/-- The state right after reset (R35, R170), with no command loaded (R29). `freeCount` is 1 since the tail took draw 0
(DESIGN CHOICE: notes/assumptions/2.md). -/
def State.reset : State where
  digest := Digest.reset 0
  status := 0
  fcmd := 0
  pc := 0
  prog := []
  responses := []
  nextRuns := []
  freeCount := 1

end Sys2Proof.Machine
end

