-- ==== Sys2Proof/Machine/Operands.lean ====
section
/-! DEFINITION. Byte lanes of the 128-bit carriers DATA and RSP, and the byte orders of words (00_scope.md R11, R12;
20_memory.md R42 to R46; 30_encoding.md R64 to R66). There are no register operands (R64). -/

namespace Sys2Proof.Machine

/-- Byte lane `j` of a beat or a response: bits `8*j+7 : 8*j` (R65, R66). -/
def lane (v : BitVec 128) (j : Nat) : Byte := v.extractLsb' (8 * j) 8

/-- The data of a WRITE of `n` bytes: lanes 0 to `n-1` of its beat, lane 0 first (R42, R65). -/
def beatBytes (n : Nat) (data : BitVec 128) : List Byte := (List.range n).map (lane data)

/-- The 128-bit value whose lane `j` is byte `j` of `d` for `j` in 0 to 15, and 0 where `d` is shorter (R66, R69). -/
def packLanes (d : List Byte) : BitVec 128 :=
  (List.range 16).foldl (fun v j => v ||| ((d.getD j 0).zeroExtend 128 <<< (8 * j))) 0

/-- The first `k` 16-byte pieces of `d`, in order; the last may be shorter where `d` ends (R12: `d[16*j .. 16*j+16)`). -/
def pieces : Nat → List Byte → List (List Byte)
  | 0, _ => []
  | k + 1, d => d.take 16 :: pieces k (d.drop 16)

/-- `rotl64(a, r)`, as R11 writes it; every use has `r` in 27, 31, 33 (R103). -/
def rotl64 (a : U64) (r : Nat) : U64 := (a <<< r) ||| (a >>> (64 - r))

/-- `le64(b0..b7)`: the sum of `zext_64(b_i) << (8*i)`, least significant byte first (R12, R43). -/
def le64 (b : List Byte) : U64 :=
  (List.range 8).foldl (fun v i => v + (zext64 (b.getD i 0) <<< (8 * i))) 0

/-- `be_bytes64(x)`: the 8 bytes of `x`, most significant first (R12, R45). -/
def beBytes64 (x : U64) : List Byte := (List.range 8).map fun i => x.extractLsb' (56 - 8 * i) 8

end Sys2Proof.Machine
end

