-- ==== Sys2Proof/Machine/Mixer.lean ====
section
/-! DEFINITION. The block mixer BM (41_block_mixer.md). It reads and writes nothing but its operands (R105). -/

namespace Sys2Proof.Machine

/-- `C1` of R100. -/
def c1 : U64 := 0x87c37b91114253d5

/-- `C2` of R100. -/
def c2 : U64 := 0x4cf5ad432745937f

/-- `A1` of R100. -/
def a1 : U64 := 0x52dce729

/-- `A2` of R100. -/
def a2 : U64 := 0x38495ab5

/-- The `k1` word through its multiplies and rotate (R101; R121 uses the same steps). -/
def mixK1 (k1 : U64) : U64 := rotl64 (k1 * c1) 31 * c2

/-- The `k2` word through its multiplies and rotate (R101; R121 uses the same steps). -/
def mixK2 (k2 : U64) : U64 := rotl64 (k2 * c2) 33 * c1

/-- `BM(h1, h2, b)` of R101. The `h2` update adds the new `h1` (R104). Irreducible so
that no proof about a digest unfolds its multiplications by accident. -/
@[irreducible] def bm (h1 h2 : U64) (b : List Byte) : U64 × U64 :=
  let k1 := le64 (b.take 8)
  let k2 := le64 (b.drop 8)
  let h1' := (rotl64 (h1 ^^^ mixK1 k1) 27 + h2) * 5 + a1
  let h2' := (rotl64 (h2 ^^^ mixK2 k2) 31 + h1') * 5 + a2
  (h1', h2')

end Sys2Proof.Machine
end

