-- ==== Sys2Proof/Syntax.lean ====
section
/-! DEFINITION. The commands of the engine: one constructor per row of spec/opcode_table.json (30_encoding.md R62, R68). -/

namespace Sys2Proof

/-- A command with all its operands. WRITE carries its byte count and the whole data beat of its transaction
(R60, R68: "a 64-bit word plus a 128-bit beat"); how many lanes of the beat are data is the meaning's to say (R65).
DEDUCED, safe: notes/assumptions/3.md. -/
inductive Instr where
  /-- INIT: start a new digest with a 32-bit seed (R80). -/
  | init (seed : BitVec 32)
  /-- WRITE: append the first `n` bytes of the beat `data` to the stream (R81). -/
  | write (n : BitVec 5) (data : BitVec 128)
  /-- SUM128: return the finalized pair (R123). -/
  | sum128
  /-- SUM: return the finalized pair as 16 big-endian bytes (R124). -/
  | sum
  /-- SIZE: return the constant 16 (R125). -/
  | size
  deriving DecidableEq, Repr

end Sys2Proof
end

