-- ==== Sys2Proof/WellFormed.lean ====
section
/-! DEFINITION. Which terms of `Instr` are commands of the engine (30_encoding.md R63, R64). -/

namespace Sys2Proof

/-- A WRITE's byte count is 0 to 16 ("an unsigned 5-bit value of which 0 to 16 are legal", R64); every seed is legal (R80). -/
def Instr.wf : Instr → Bool
  | .init _ => true
  | .write n _ => decide (n.toNat ≤ Config.nMax)
  | .sum128 => true
  | .sum => true
  | .size => true

end Sys2Proof
end

