-- ==== Sys2Proof/Decode.lean ====
section
/-! DEFINITION. Decoding a command, and encoding one (30_encoding.md R61 to R68; spec/opcode_table.json). -/

namespace Sys2Proof

open Sys2Proof.Machine (Command)

/-- The four fields of the command word (R61). -/
def opField (cmd : BitVec 64) : BitVec 4 := cmd.extractLsb' 0 4
@[inherit_doc opField] def nField (cmd : BitVec 64) : BitVec 5 := cmd.extractLsb' 4 5
@[inherit_doc opField] def rsvField (cmd : BitVec 64) : BitVec 23 := cmd.extractLsb' 9 23
@[inherit_doc opField] def immField (cmd : BitVec 64) : BitVec 32 := cmd.extractLsb' 32 32

/-- `legal(CMD)`, as R63 writes it. -/
def legal (cmd : BitVec 64) : Bool :=
  rsvField cmd == 0
    && (((opField cmd == 1) && (nField cmd == 0))
      || ((opField cmd == 2) && decide ((nField cmd).toNat ≤ Config.nMax) && (immField cmd == 0))
      || ((opField cmd == 3 || opField cmd == 4 || opField cmd == 5) && (nField cmd == 0) && (immField cmd == 0)))

/-- Why a command word is illegal: the classes of R67. -/
inductive Illegal where
  /-- OP is `0x0` or `0x6` to `0xF`. -/
  | reservedOpcode
  /-- A bit of RSV is set. -/
  | nonzeroReserved
  /-- N is not 0 in a command other than WRITE. -/
  | nonzeroCount
  /-- N is 17 to 31 in a WRITE. -/
  | countTooLarge
  /-- IMM is not 0 in a command other than INIT. -/
  | nonzeroImmediate
  deriving DecidableEq, Repr

/-- A command whose N and IMM must both be 0 (R61, R63). -/
def bareCommand (cmd : BitVec 64) (i : Instr) : Except Illegal Instr :=
  if nField cmd ≠ 0 then .error .nonzeroCount
  else if immField cmd ≠ 0 then .error .nonzeroImmediate
  else .ok i

/-- `decode(CMD)` of R68, total over all command words, with the reason of R67 where the word is illegal. Which reason
is named when several apply is the model's choice and nothing depends on it (DESIGN CHOICE, safe: notes/assumptions/10.md).
The legality of a command reads only CMD, never DATA (R151); a WRITE keeps DATA as its operand (R65). -/
def decode (c : Command) : Except Illegal Instr :=
  if rsvField c.cmd ≠ 0 then .error .nonzeroReserved
  else if opField c.cmd = 1 then
    if nField c.cmd ≠ 0 then .error .nonzeroCount else .ok (.init (immField c.cmd))
  else if opField c.cmd = 2 then
    if Config.nMax < (nField c.cmd).toNat then .error .countTooLarge
    else if immField c.cmd ≠ 0 then .error .nonzeroImmediate
    else .ok (.write (nField c.cmd) c.data)
  else if opField c.cmd = 3 then bareCommand c.cmd .sum128
  else if opField c.cmd = 4 then bareCommand c.cmd .sum
  else if opField c.cmd = 5 then bareCommand c.cmd .size
  else .error .reservedOpcode

/-- One row of the opcode table of R63: a word matches where `word AND mask = pattern`; `countLimit` is WRITE's extra
condition `CMD[8:4] <= 16`. -/
structure OpcodeRow where
  mnemonic   : String
  pattern    : BitVec 64
  mask       : BitVec 64
  countLimit : Option Nat
  deriving DecidableEq, Repr

/-- The match and mask pairs of R63, the copy of spec/opcode_table.json. -/
def opcodeTable : List OpcodeRow :=
  [⟨"INIT",   0x0000000000000001, 0x00000000FFFFFFFF, none⟩,
   ⟨"WRITE",  0x0000000000000002, 0xFFFFFFFFFFFFFE0F, some Config.nMax⟩,
   ⟨"SUM128", 0x0000000000000003, 0xFFFFFFFFFFFFFFFF, none⟩,
   ⟨"SUM",    0x0000000000000004, 0xFFFFFFFFFFFFFFFF, none⟩,
   ⟨"SIZE",   0x0000000000000005, 0xFFFFFFFFFFFFFFFF, none⟩]

/-- A word matches a row's pattern under its mask (R63). -/
def OpcodeRow.matchesWord (r : OpcodeRow) (cmd : BitVec 64) : Bool := cmd &&& r.mask == r.pattern

/-- A word meets a row's extra condition (R63). -/
def OpcodeRow.meetsLimit (r : OpcodeRow) (cmd : BitVec 64) : Bool :=
  match r.countLimit with
  | none => true
  | some k => decide ((nField cmd).toNat ≤ k)

/-- The command word with the given fields, RSV being 0 (R61). -/
def commandWord (op : BitVec 4) (n : BitVec 5) (imm : BitVec 32) : BitVec 64 :=
  (imm.zeroExtend 64 <<< 32) ||| (n.zeroExtend 64 <<< 4) ||| op.zeroExtend 64

/-- The transaction that issues a command (R61, R62). A command other than WRITE leaves DATA 0, as the assembler
does with lanes a line does not give (R69). -/
def encode : Instr → Command
  | .init seed => ⟨commandWord 1 0 seed, 0⟩
  | .write n data => ⟨commandWord 2 n 0, data⟩
  | .sum128 => ⟨commandWord 3 0 0, 0⟩
  | .sum => ⟨commandWord 4 0 0, 0⟩
  | .size => ⟨commandWord 5 0 0, 0⟩

/-- The transaction whose bits, CMD first and DATA above it, are the low `nbits` bits of `w`, every higher bit 0
(R68: a 64-bit word plus a 128-bit beat; the numbering is notes/assumptions/3.md). -/
def commandOfBits (nbits w : Nat) : Command :=
  let v := w % 2 ^ nbits
  ⟨BitVec.ofNat 64 v, BitVec.ofNat 128 (v / 2 ^ 64)⟩

/-- The instruction the decoder reads from an instruction whose low `nbits` bits are those of `w`. -/
def decodeTableWord (nbits w : Nat) : Option Instr :=
  match decode (commandOfBits nbits w) with
  | .ok i => some i
  | .error _ => none

end Sys2Proof
end

