-- ==== Sys2Proof/Machine/Flags.lean ====
section
/-! DEFINITION. STATUS and FCMD (10_state.md R30 to R32). No arithmetic of the engine sets a flag (R32, R103): the one
flag is `STATUS.FAULT`. -/

namespace Sys2Proof.Machine

/-- The cause codes held in `STATUS.CAUSE` (60_exceptions.md R150). -/
def FaultCause.code : FaultCause → BitVec 3
  | .illegalCommand => 1
  | .blockPrecondition => 2

/-- `STATUS.FAULT`, bit 0 (R30). -/
def statusFault (st : BitVec 32) : Bool := st.getLsbD 0

/-- `STATUS.CAUSE`, bits 3:1 (R30). -/
def statusCause (st : BitVec 32) : BitVec 3 := st.extractLsb' 1 3

/-- What fault entry makes of STATUS: `FAULT <- 1`, `CAUSE <- code(F)`, the reserved bits as they were (R30, R153). -/
def statusWithFault (f : FaultCause) (st : BitVec 32) : BitVec 32 :=
  (st &&& 0xFFFFFFF0#32) ||| (f.code.zeroExtend 32 <<< 1) ||| 1#32

/-- The engine is in the fault state (R155). -/
def State.faulted (s : State) : Bool := statusFault s.status

/-- The host's read of STATUS, with no side effect; bits 31:4 read as 0 (R30). -/
def readStatus (s : State) : BitVec 32 := s.status &&& 0xF

/-- The host's read of FCMD, with no side effect (R31). -/
def readFcmd (s : State) : BitVec 64 := s.fcmd

/-- The level output `FAULT_OUT = STATUS.FAULT` (60_exceptions.md R159). -/
def faultOut (s : State) : Bool := statusFault s.status

end Sys2Proof.Machine
end

