-- ==== Sys2Proof/Machine/Ops.lean ====
section
/-! DEFINITION. The operations the commands share: the tail buffer's primitives, answering a command, entering the fault
state and staying in it, reset, and the host's side of the run. -/

namespace Sys2Proof.Machine

/-- `MemRead(off, n)`: the `n` bytes of the tail from offset `off` (20_memory.md R41). Callers keep `off + n <= 16`; past
offset 15 there is no byte and none is returned (notes/assumptions/8.md). -/
def memRead (tail : Vector Byte 16) (off n : Nat) : List Byte := (tail.toList.drop off).take n

/-- `MemWrite(off, n, d)` with `n` the length of `d`: `tail[off+i] <- d[i]` (R41). Callers keep `off + n <= 16`; past
offset 15 there is no byte and none is written (notes/assumptions/8.md). -/
def memWrite (tail : Vector Byte 16) (off : Nat) (d : List Byte) : Vector Byte 16 :=
  Vector.ofFn fun o =>
    if off ≤ o.val ∧ o.val < off + d.length then d.getD (o.val - off) 0 else tail[o]

/-- The byte of the tail at an offset, where there is one. -/
def tailByte (g : Digest) (o : Nat) : Option Byte := g.tail[o]?

/-- The end of every command, accepted or refused: one response goes to the host and the host's index moves on
(10_state.md R29; 30_encoding.md R66). -/
def respond (r : Response) (s : State) : State :=
  { s with pc := s.pc + 1, responses := s.responses ++ [r] }

/-- ACK (R66). -/
def ackResponse : Response := ⟨.ack, 0⟩

/-- VALUE (R66). -/
def valueResponse (v : BitVec 128) : Response := ⟨.value, v⟩

/-- ERR, with `zext(STATUS.CAUSE)` after the command (R66, R155). -/
def errResponse (s : State) : Response := ⟨.err, (statusCause s.status).zeroExtend 128⟩

/-- Fault entry, `raise F(CMD)`: FAULT and CAUSE are set, FCMD takes the word, and the command ends with ERR
(60_exceptions.md R153). There is no vector, saved index or mode. -/
def raiseFault (f : FaultCause) (cmd : BitVec 64) (s : State) : State :=
  let entered := { s with status := statusWithFault f s.status, fcmd := cmd }
  respond (errResponse entered) entered

/-- A command in the fault state is refused: ERR, and nothing else changes (R155). -/
def refuse (s : State) : State := respond (errResponse s) s

/-- The digest state after BLOCK_PRECONDITION: each field an arbitrary value of its width (10_state.md R34; R154; U2). -/
def loseDigest (s : State) : State :=
  { s with
    digest :=
      { seed := Config.freeSeed s.freeCount
        h1 := Config.freeH1 s.freeCount
        h2 := Config.freeH2 s.freeCount
        tail := Vector.ofFn fun o => Config.freeTailByte s.freeCount o.val
        tailLen := Config.freeTailLen s.freeCount
        totalLen := Config.freeTotalLen s.freeCount }
    freeCount := s.freeCount + 1 }

/-- Reset, `Reset()` of 70_reset_and_hazards.md R170: the digest, STATUS, FCMD and the host's index; no response. It is the
only way out of the fault state (60_exceptions.md R157). The list of responses starts again, as a new run does (R173;
DESIGN CHOICE: notes/assumptions/5.md). -/
def engineReset (s : State) : State :=
  { s with
    digest := Digest.reset s.freeCount
    status := 0
    fcmd := 0
    pc := 0
    responses := []
    freeCount := s.freeCount + 1 }

/-- The command SEQ accepts next: `prog[pc]`, if the run has not ended (10_state.md R29). -/
def fetch (s : State) : Option Command := s.prog[s.pc]?

/-- When the run has ended: the host asserts reset and begins its next run (R170, R173; notes/assumptions/5.md), or, where
it has none, the engine idles and keeps its whole state (10_state.md R28; 60_exceptions.md R166; notes/assumptions/6.md). -/
def betweenRuns (s : State) : State :=
  match s.nextRuns with
  | [] => s
  | p :: rest => { engineReset s with prog := p, nextRuns := rest }

/-- The host's command sequence for a run from this state (R173: "or from a stated start state"). -/
def State.load (p : List Command) (s : State) : State := { s with prog := p, pc := 0, responses := [] }

/-- The sequence with `c` as its command number `k`, filled up with all-zero transactions where it was shorter. -/
def placeCommand : Nat → Command → List Command → List Command
  | 0, c, [] => [c]
  | 0, c, _ :: rest => c :: rest
  | k + 1, c, [] => ⟨0, 0⟩ :: placeCommand k c []
  | k + 1, c, x :: rest => x :: placeCommand k c rest

/-- Fork: two engines in the same state (10_state.md R36, D16). No command does this. -/
def fork (s : State) : State × State := (s, s)

end Sys2Proof.Machine
end

