-- ==== Sys2Proof/Machine/Finalization.lean ====
section
/-! DEFINITION. The finalizer, finalization, and the commands SUM128, SUM and SIZE (42_finalization.md). They read the digest
and write none of it (R126). -/

namespace Sys2Proof.Machine

/-- `fmix64` of R120. -/
@[irreducible] def fmix64 (k : U64) : U64 :=
  let k := k ^^^ (k >>> 33)
  let k := k * 0xff51afd7ed558ccd
  let k := k ^^^ (k >>> 33)
  let k := k * 0xc4ceb9fe1a85ec53
  k ^^^ (k >>> 33)

/-- The `count` bytes of `t` from offset `first`, each XORed in eight bits above the one before (R121; 20_memory.md R44). -/
def xorBytes (t : List Byte) (first count : Nat) : U64 :=
  (List.range count).foldl (fun k i => k ^^^ (zext64 (t.getD (first + i) 0) <<< (8 * i))) 0

/-- `TailWords(h1, h2)` of R121, for `n` valid tail bytes `t`. The `k1` group runs for every `n` from 1 to 15 (C1). -/
@[irreducible] def tailWords (h1 h2 : U64) (t : List Byte) (n : Nat) : U64 × U64 :=
  (if 1 ≤ n then h1 ^^^ mixK1 (xorBytes t 0 (min n 8)) else h1,
   if 9 ≤ n then h2 ^^^ mixK2 (xorBytes t 8 (n - 8)) else h2)

/-- Steps 4 to 8 of R122, on local copies of the accumulators. -/
@[irreducible] def avalanche (a b totalLen : U64) : U64 × U64 :=
  let a := a ^^^ totalLen
  let b := b ^^^ totalLen
  let a := a + b
  let b := b + a
  let a := fmix64 a
  let b := fmix64 b
  let a := a + b
  let b := b + a
  (a, b)

/-- Finalization from accumulators, the pending bytes `t`, their count `n`, and the stream length (R122). -/
def finalizeFrom (h1 h2 : U64) (t : List Byte) (n : Nat) (totalLen : U64) : U64 × U64 :=
  let w := tailWords h1 h2 t n
  avalanche w.1 w.2 totalLen

/-- `Finalize()` of R122. -/
def finalize (g : Digest) : U64 × U64 :=
  finalizeFrom g.h1 g.h2 (memRead g.tail 0 g.tailLen.toNat) g.tailLen.toNat g.totalLen

/-- SUM128's response value: `RSP[63:0] <- r1`, `RSP[127:64] <- r2` (R123). -/
def sum128Value (r : U64 × U64) : BitVec 128 := (r.2.zeroExtend 128 <<< 64) ||| r.1.zeroExtend 128

/-- SUM's 16 bytes: `be_bytes64(r1) ++ be_bytes64(r2)` (R124). -/
def sumBytes (r : U64 × U64) : List Byte := beBytes64 r.1 ++ beBytes64 r.2

/-- SUM128 (R123). -/
def execSum128 (s : State) : Host.Outcome State Fault Refusal :=
  .next (respond (valueResponse (sum128Value (finalize s.digest))) s)

/-- SUM (R124). -/
def execSum (s : State) : Host.Outcome State Fault Refusal :=
  .next (respond (valueResponse (packLanes (sumBytes (finalize s.digest)))) s)

/-- SIZE (R125). -/
def execSize (s : State) : Host.Outcome State Fault Refusal :=
  .next (respond (valueResponse (BitVec.ofNat 128 Config.digestBytes)) s)

end Sys2Proof.Machine
end

