-- ==== Sys2Proof/Machine/Writer.lean ====
section
/-! DEFINITION. INIT and WRITE: seed initialization, the streaming writer, the boundary detector (40_writer.md). -/

namespace Sys2Proof.Machine

/-- `Init(s)` of R80 on the digest; the tail bytes stay as they are. -/
def initDigest (seed : BitVec 32) (g : Digest) : Digest :=
  { g with seed := seed, h1 := zext64 seed, h2 := zext64 seed, tailLen := 0, totalLen := 0 }

/-- INIT (R80). -/
def execInit (seed : BitVec 32) (s : State) : Host.Outcome State Fault Refusal :=
  .next (respond ackResponse { s with digest := initDigest seed s.digest })

/-- `totalLen <- totalLen + zext_64(N)` (R86). -/
def addLength (n : Nat) (g : Digest) : Digest := { g with totalLen := g.totalLen + BitVec.ofNat 64 n }

/-- TailAppend (R82): the bytes go after the valid ones. -/
def tailAppend (d : List Byte) (g : Digest) : Digest :=
  { g with
    tail := memWrite g.tail g.tailLen.toNat d
    tailLen := BitVec.ofNat 5 (g.tailLen.toNat + d.length) }

/-- The accumulators take a new pair, as a block dispatch does (10_state.md R23). -/
def setAcc (h : U64 × U64) (g : Digest) : Digest := { g with h1 := h.1, h2 := h.2 }

/-- `tailLen <- 0`. -/
def emptyTail (g : Digest) : Digest := { g with tailLen := 0 }

/-- MixTail (R83): the tail's block goes to BM and the tail is emptied, unless the check before it fails (R152). -/
def mixTail (g : Digest) : Except FaultCause Digest :=
  if g.tailLen ≠ 16 then .error .blockPrecondition
  else .ok (emptyTail (setAcc (bm g.h1 g.h2 (memRead g.tail 0 Config.blockBytes)) g))

/-- MixDirect (R84): a block inside the command's data goes to BM; the tail is not touched. -/
def mixDirect (b : List Byte) (g : Digest) : Digest := setAcc (bm g.h1 g.h2 b) g

/-- Step 3 of R81: blocks go to BM one after another, in order. -/
def mixBlocks (bs : List (List Byte)) (g : Digest) : Digest := bs.foldl (fun g b => mixDirect b g) g

/-- StoreRemainder (R85): the tail holds these bytes and no others. -/
def storeRemainder (r : List Byte) (g : Digest) : Digest :=
  { g with tail := memWrite g.tail 0 r, tailLen := BitVec.ofNat 5 r.length }

/-- Steps 3 and 4 of R81. -/
def writeDirect (d : List Byte) (g : Digest) : Digest :=
  let k := d.length / Config.blockBytes
  storeRemainder (d.drop (Config.blockBytes * k)) (mixBlocks (pieces k d) g)

/-- Step 1 of R81: the data goes into the tail, and the boundary detector dispatches the tail if that filled it. -/
def fillTail (d : List Byte) (g : Digest) : Except FaultCause Digest :=
  if (tailAppend d g).tailLen = 16 then mixTail (tailAppend d g) else .ok (tailAppend d g)

/-- Step 2 of R81 and the steps after it: the first `free` bytes complete the tail, which is dispatched, and the rest of the
data goes on. -/
def overfillTail (free : Nat) (d : List Byte) (g : Digest) : Except FaultCause Digest :=
  match mixTail (tailAppend (d.take free) g) with
  | .error f => .error f
  | .ok mixed => .ok (writeDirect (d.drop free) mixed)

/-- Steps 1 to 4 of R81, by the reading of R88. Where `tailLen` is over 16, which no run reaches, `free` is 0
(notes/assumptions/8.md). -/
def writeBytes (d : List Byte) (g : Digest) : Except FaultCause Digest :=
  if 0 < g.tailLen.toNat then
    if d.length ≤ Config.tailCap - g.tailLen.toNat then fillTail d g
    else overfillTail (Config.tailCap - g.tailLen.toNat) d g
  else .ok (writeDirect d g)

/-- `Write(data)` of R81 on the digest. -/
def writeDigest (data : List Byte) (g : Digest) : Except FaultCause Digest :=
  writeBytes data (addLength data.length g)

/-- WRITE (R81). Where the check of R83 fails the command raises BLOCK_PRECONDITION with its own word in FCMD (R150, R153),
and the digest is lost (R34, R154). -/
def execWrite (n : BitVec 5) (data : BitVec 128) (s : State) : Host.Outcome State Fault Refusal :=
  match writeDigest (beatBytes n.toNat data) s.digest with
  | .ok g => .next (respond ackResponse { s with digest := g })
  | .error f => .next (raiseFault f (encode (.write n data)).cmd (loseDigest s))

end Sys2Proof.Machine
end

