-- ==== Sys2Proof/Machine/Dispatch.lean ====
section
/-! DEFINITION. What each command does once SEQ has accepted it: step 3 of the order of checks (60_exceptions.md R156). -/

namespace Sys2Proof.Machine

def exec (i : Instr) (s : State) : Host.Outcome State Fault Refusal :=
  match i with
  | .init seed => Sys2Proof.Machine.execInit seed s
  | .write n data => Sys2Proof.Machine.execWrite n data s
  | .sum128 => Sys2Proof.Machine.execSum128 s
  | .sum => Sys2Proof.Machine.execSum s
  | .size => Sys2Proof.Machine.execSize s

end Sys2Proof.Machine
end

