-- ==== Sys2Proof/Machine/Step.lean ====
section
/-! DEFINITION. One step of SEQ: one command, with its checks in the order of 60_exceptions.md R156, or what happens
between runs. -/

namespace Sys2Proof.Machine

/-- One step. A command in the fault state is refused undecoded (R155); an illegal word raises ILLEGAL_COMMAND (R151); a
legal one runs. Where no command is left, the run has ended (10_state.md R29). -/
def step (s : State) : Host.Outcome State Fault Refusal :=
  match fetch s with
  | none => .next (betweenRuns s)
  | some c =>
    if s.faulted then .next (refuse s)
    else
      match decode c with
      | .error _ => .next (raiseFault .illegalCommand c.cmd s)
      | .ok i => exec i s

/-- `s` with the transaction of these bits as the command SEQ accepts next (notes/assumptions/4.md). -/
def State.withFetchWord (s : State) (nbits w : Nat) : State :=
  { s with prog := placeCommand s.pc (commandOfBits nbits w) s.prog }

end Sys2Proof.Machine
end

