-- ==== Sys2Proof/Machine/Assembler.lean ====
section
/-! DEFINITION. The host's assembler: the command assembly syntax and the pseudo-commands (30_encoding.md R69, R70;
43_convenience.md R140 to R144). Everything here is host-side; the engine sees only the commands it yields. -/

namespace Sys2Proof.Machine

/-- One line of assembly (R69, R70). -/
inductive AsmLine where
  /-- `INIT seed`, or `INIT` alone (R140). -/
  | init (seed : Option (BitVec 32))
  /-- `WRITE n, b0 b1 ... b(n-1)`. -/
  | write (n : Nat) (bytes : List Byte)
  /-- `WRITE "text"`, as its ASCII bytes. -/
  | writeText (bytes : List Byte)
  | sum128
  | sum
  | size
  /-- `.word 0x...`: any raw command word, with DATA 0. -/
  | word (cmd : BitVec 64)
  /-- `WRITESTR data` (R142). -/
  | writeStr (data : List Byte)
  /-- `HASH128 data, seed`, or `HASH128 data` (R141, R143). -/
  | hash128 (data : List Byte) (seed : Option (BitVec 32))
  /-- `SUMP` with the host's own bytes (R144). -/
  | sump (before : List Byte)
  deriving DecidableEq, Repr

/-- The WRITE of at most 16 bytes, the lanes after them 0 (R69). -/
def writeInstr (bytes : List Byte) : Instr := .write (BitVec.ofNat 5 bytes.length) (packLanes bytes)

/-- The expansion of `WRITESTR data`: `WRITE 0` for no data, else `ceil(L/16)` WRITEs (R142). -/
def writeStrInstrs (data : List Byte) : List Instr :=
  if data = [] then [writeInstr []] else (pieces ((data.length + 15) / Config.nMax) data).map writeInstr

/-- The expansion of `HASH128 data, seed` (R141). -/
def hash128Instrs (data : List Byte) (seed : BitVec 32) : List Instr :=
  .init seed :: (writeStrInstrs data ++ [.sum128])

/-- The commands a line stands for. A WRITE whose count is not that of its bytes, or is over 16, is no line of R69. -/
def assembleLine : AsmLine → Option (List Command)
  | .init seed => some [encode (.init (seed.getD 0))]
  | .write n bytes => if n = bytes.length ∧ n ≤ Config.nMax then some [encode (writeInstr bytes)] else none
  | .writeText bytes => if bytes.length ≤ Config.nMax then some [encode (writeInstr bytes)] else none
  | .sum128 => some [encode .sum128]
  | .sum => some [encode .sum]
  | .size => some [encode .size]
  | .word cmd => some [⟨cmd, 0⟩]
  | .writeStr data => some ((writeStrInstrs data).map encode)
  | .hash128 data seed => some ((hash128Instrs data (seed.getD 0)).map encode)
  | .sump _ => some [encode .sum]

/-- The command sequence of a program. -/
def assemble : List AsmLine → Option (List Command)
  | [] => some []
  | l :: rest =>
    match assembleLine l, assemble rest with
    | some c, some cs => some (c ++ cs)
    | _, _ => none

/-- The 16 lanes of a response, lane 0 first (R66, R144). -/
def responseBytes (rsp : BitVec 128) : List Byte := beatBytes 16 rsp

/-- The result of `SUMP`: the host's bytes and then the 16 response bytes of SUM (R144). -/
def sumpResult (before : List Byte) (rsp : BitVec 128) : List Byte := before ++ responseBytes rsp

/-! The text of a line. R69 gives the forms; the rest (white space, the digits of a byte, the data of a pseudo-command
written as `WRITE` writes its own) is the model's: DESIGN CHOICE, safe: notes/assumptions/9.md. -/

/-- A piece of a line's text. -/
inductive Token where
  | word (cs : List Char)
  | text (cs : List Char)
  | comma
  deriving DecidableEq, Repr

/-- The word read so far, last character first, as a token. -/
def endWord (cur : List Char) (ts : List Token) : List Token :=
  if cur = [] then ts else .word cur.reverse :: ts

/-- The tokens of a line. `cur` is what has been read of the present token, last character first, and `quoted` says that it
is a text. `;` starts a comment (R69), but not within a text. -/
def tokens : List Char → List Char → Bool → Option (List Token)
  | [], cur, false => some (endWord cur [])
  | [], _, true => none
  | c :: cs, cur, true =>
    if c = '"' then (tokens cs [] false).map (Token.text cur.reverse :: ·) else tokens cs (c :: cur) true
  | c :: cs, cur, false =>
    if c = ';' then some (endWord cur [])
    else if c = '"' then (tokens cs [] true).map (endWord cur)
    else if c = ' ' ∨ c = '\t' then (tokens cs [] false).map (endWord cur)
    else if c = ',' then (tokens cs [] false).map fun ts => endWord cur (.comma :: ts)
    else tokens cs (c :: cur) false

/-- The value of a digit, up to `f` or `F`. -/
def digitValue (c : Char) : Option Nat :=
  let v := c.toNat
  if 48 ≤ v ∧ v ≤ 57 then some (v - 48)
  else if 97 ≤ v ∧ v ≤ 102 then some (v - 87)
  else if 65 ≤ v ∧ v ≤ 70 then some (v - 55)
  else none

/-- The number the digits write in a base, after a value `acc` read before them. -/
def digitsValue (base : Nat) : Nat → List Char → Option Nat
  | acc, [] => some acc
  | acc, c :: cs =>
    match digitValue c with
    | some d => if d < base then digitsValue base (base * acc + d) cs else none
    | none => none

/-- A number of one digit or more. -/
def numeral (base : Nat) (cs : List Char) : Option Nat := if cs = [] then none else digitsValue base 0 cs

/-- A decimal number, or a hexadecimal one after `0x` (R69). -/
def number : List Char → Option Nat
  | '0' :: 'x' :: cs => numeral 16 cs
  | cs => numeral 10 cs

/-- A number below `2^w`. -/
def numberBits (w : Nat) (cs : List Char) : Option (BitVec w) :=
  match number cs with
  | some v => if v < 2 ^ w then some (BitVec.ofNat w v) else none
  | none => none

/-- A data byte: two hexadecimal digits (R69). -/
def byteOf (cs : List Char) : Option Byte :=
  if cs.length = 2 then (numeral 16 cs).map (BitVec.ofNat 8) else none

/-- The bytes of a text of ASCII characters (R69). -/
def asciiBytes (cs : List Char) : Option (List Byte) :=
  cs.mapM fun c => if c.toNat < 128 then some (BitVec.ofNat 8 c.toNat) else none

/-- Data bytes up to the end of the line or a comma, and the tokens from there on. -/
def byteList : List Token → Option (List Byte × List Token)
  | .word cs :: ts =>
    match byteOf cs, byteList ts with
    | some b, some (bs, rest) => some (b :: bs, rest)
    | _, _ => none
  | .text _ :: _ => none
  | .comma :: ts => some ([], .comma :: ts)
  | [] => some ([], [])

/-- The data of a pseudo-command: a text, or bytes. -/
def dataOf : List Token → Option (List Byte × List Token)
  | .text cs :: ts => (asciiBytes cs).map (·, ts)
  | .word cs :: ts => byteList (.word cs :: ts)
  | .comma :: ts => some ([], .comma :: ts)
  | [] => some ([], [])

/-- The line that a mnemonic and its operands write. -/
def lineOf (m : List Char) (ts : List Token) : Option AsmLine :=
  if m = "INIT".toList then
    match ts with
    | [] => some (.init none)
    | [.word cs] => (numberBits 32 cs).map fun v => .init (some v)
    | _ => none
  else if m = "WRITE".toList then
    match ts with
    | [.text cs] => (asciiBytes cs).map .writeText
    | [.word cs] => (number cs).map fun n => .write n []
    | .word cs :: .comma :: ts =>
      match number cs, byteList ts with
      | some n, some (bs, []) => some (.write n bs)
      | _, _ => none
    | _ => none
  else if m = ".word".toList then
    match ts with
    | [.word cs] => (numberBits 64 cs).map .word
    | _ => none
  else if m = "WRITESTR".toList then
    match dataOf ts with
    | some (d, []) => some (.writeStr d)
    | _ => none
  else if m = "HASH128".toList then
    match dataOf ts with
    | some (d, []) => some (.hash128 d none)
    | some (d, [.comma, .word cs]) => (numberBits 32 cs).map fun v => .hash128 d (some v)
    | _ => none
  else if m = "SUMP".toList then
    match dataOf ts with
    | some (d, []) => some (.sump d)
    | _ => none
  else if ts ≠ [] then none
  else if m = "SUM128".toList then some .sum128
  else if m = "SUM".toList then some .sum
  else if m = "SIZE".toList then some .size
  else none

/-- The line a text writes: none of it where it is blank or a comment. -/
def parseLine (cs : List Char) : Option (List AsmLine) :=
  match tokens cs [] false with
  | some [] => some []
  | some (.word m :: ts) => (lineOf m ts).map ([·])
  | _ => none

/-- The lines of a text, the one being read held last character first. -/
def splitLines : List Char → List Char → List (List Char)
  | [], cur => [cur.reverse]
  | c :: cs, cur => if c = '\n' then cur.reverse :: splitLines cs [] else splitLines cs (c :: cur)

/-- The lines of a program text, one command per line (R69). -/
def parse (text : String) : Option (List AsmLine) :=
  ((splitLines text.toList []).mapM parseLine).map List.flatten

/-- A program text as the command sequence it writes, if it is one. -/
def assembleText (text : String) : Option (List Command) :=
  match parse text with
  | some ls => assemble ls
  | none => none

end Sys2Proof.Machine
end

