-- ==== Sys2Proof/Safety.lean ====
section
/-! DEFINITION. The terms in which statements speak of runs: the end of a run, the stream a digest stands for, the hash of a
byte sequence, and the invariants every step keeps. -/

namespace Sys2Proof.Machine

/-- A run ends when `pc = L` (10_state.md R29). -/
def State.ended (s : State) : Prop := s.pc = s.prog.length

/-- A run ends successfully only with `STATUS.FAULT = 0` (70_reset_and_hazards.md R173). -/
def State.succeeded (s : State) : Prop := s.ended ∧ s.faulted = false

/-- Commands executed one after another, each accepted (60_exceptions.md R156 step 3). -/
def execList : List Instr → State → Host.Outcome State Fault Refusal
  | [], s => .next s
  | i :: is, s =>
    match exec i s with
    | .next t => execList is t
    | .fault f => .fault f
    | .refused r => .refused r

/-- `k` steps, stopping at the first that gives no next state: the run of the host's interface, over `step` itself. -/
def steps : Nat → State → Host.Outcome State Fault Refusal
  | 0, s => .next s
  | k + 1, s =>
    match step s with
    | .next t => steps k t
    | .fault f => .fault f
    | .refused r => .refused r

/-- The command is a WRITE with a legal byte count (40_writer.md R81). -/
def isWrite : Instr → Bool
  | .init _ => false
  | .write n _ => decide (n.toNat ≤ Config.nMax)
  | .sum128 => false
  | .sum => false
  | .size => false

/-- The command is one of those that write no state (42_finalization.md R126). -/
def isRead : Instr → Bool
  | .init _ => false
  | .write _ _ => false
  | .sum128 => true
  | .sum => true
  | .size => true

/-- The data a command carries (30_encoding.md R65). -/
def dataBytes : Instr → List Byte
  | .init _ => []
  | .write n data => beatBytes n.toNat data
  | .sum128 => []
  | .sum => []
  | .size => []

/-- The stream that a sequence of WRITEs appends (20_memory.md R42). -/
def writtenBytes (is : List Instr) : List Byte := is.flatMap dataBytes

/-- The stream after a command, from the stream before it: the bytes of every WRITE since the last INIT (R42). -/
def streamAfter (stream : List Byte) : Instr → List Byte
  | .init _ => []
  | .write n data => stream ++ beatBytes n.toNat data
  | .sum128 => stream
  | .sum => stream
  | .size => stream

/-- What every command does on the host's side: one response, the index moved on by one, the program and the later runs as
they were (10_state.md R29; 30_encoding.md R66). -/
structure Answered (s t : State) (r : Response) : Prop where
  responses : t.responses = s.responses ++ [r]
  pc        : t.pc = s.pc + 1
  prog      : t.prog = s.prog
  nextRuns  : t.nextRuns = s.nextRuns

/-- The status registers, and the count of free values, are as they were. -/
structure StatusKept (s t : State) : Prop where
  status    : t.status = s.status
  fcmd      : t.fcmd = s.fcmd
  freeCount : t.freeCount = s.freeCount

/-- The accumulators after BM has taken some blocks, in order (10_state.md R27). -/
def foldBlocks (bs : List (List Byte)) (h : U64 × U64) : U64 × U64 := bs.foldl (fun h b => bm h.1 h.2 b) h

/-- The complete 16-byte blocks of a byte sequence, those at offsets `16*j` (R27). -/
def streamBlocks (stream : List Byte) : List (List Byte) := pieces (stream.length / 16) stream

/-- The accumulators of a stream: BM over every complete block, from the widened seed (R27). -/
def streamHash (seed : BitVec 32) (stream : List Byte) : U64 × U64 :=
  foldBlocks (streamBlocks stream) (zext64 seed, zext64 seed)

/-- The bytes of a stream after its last complete block (R27). -/
def streamTail (stream : List Byte) : List Byte := stream.drop (16 * (stream.length / 16))

/-- The hash of a whole byte sequence under a seed: the source's `Sum128WithSeed(data, seed)` (43_convenience.md R141), with no
engine and no chunks. -/
def murmur3 (seed : BitVec 32) (data : List Byte) : U64 × U64 :=
  let h := streamHash seed data
  finalizeFrom h.1 h.2 (streamTail data) (streamTail data).length (BitVec.ofNat 64 data.length)

/-- The valid bytes of the tail, `tail[0..tailLen)` (R24). -/
def Digest.pending (g : Digest) : List Byte := memRead g.tail 0 g.tailLen.toNat

/-- The digest state is that of a stream (the lines of R27). -/
structure Digest.Represents (g : Digest) (stream : List Byte) : Prop where
  acc      : (g.h1, g.h2) = streamHash g.seed stream
  tailLen  : g.tailLen.toNat = stream.length % 16
  totalLen : g.totalLen = BitVec.ofNat 64 stream.length
  pending  : g.pending = streamTail stream

/-- Two digests that agree but for the tail bytes past `tailLen`, which no rule reads (R24, U5). -/
structure Digest.Same (g k : Digest) : Prop where
  seed     : g.seed = k.seed
  h1       : g.h1 = k.h1
  h2       : g.h2 = k.h2
  tailLen  : g.tailLen = k.tailLen
  totalLen : g.totalLen = k.totalLen
  pending  : g.pending = k.pending

/-- STATUS is 0, or FAULT with one of the two causes, the reserved bits 0 (10_state.md R30). -/
def State.statusLegal (s : State) : Prop := s.status = 0 ∨ s.status = 3 ∨ s.status = 5

/-- What holds between commands: `tailLen` is at rest and is the length modulo 16 (R25, R27), STATUS is legal and shows no
BLOCK_PRECONDITION (60_exceptions.md R158), FCMD is 0 while there is no fault (R31), and there has been one response per
command of the run (R29, R66). -/
structure State.Inv (s : State) : Prop where
  tailRest  : s.digest.tailLen.toNat ≤ 15
  tailMod   : s.digest.tailLen.toNat = s.digest.totalLen.toNat % 16
  status    : s.status = 0 ∨ s.status = 3
  fcmd      : s.status = 0 → s.fcmd = 0
  pc        : s.pc ≤ s.prog.length
  answered  : s.responses.length = s.pc

end Sys2Proof.Machine
end

