-- ==== Sys2Proof/Certificates/Slice0/Obligations.lean ====
section
/-! DEFINITION. The statements for the provers. "Derived" ones rest on an inference of the spec's or on a choice of the
model's; their docstrings say which. -/

open Sys2Proof Sys2Proof.Machine

/-! ## Encoding -/

/-- Words written out from 30_encoding.md R61 and R62 decode to the commands they stand for (95_test_vectors.md L2-I). -/
def Obligations.SampleWordsDecode : Prop :=
  decode ⟨0x0000002A00000001, 0⟩ = .ok (.init 0x2a) ∧
  decode ⟨0x0000000000000052, 0x6f6c6c6568⟩ = .ok (.write 5 0x6f6c6c6568) ∧
  decode ⟨0x0000000000000102, 0⟩ = .ok (.write 16 0) ∧
  decode ⟨0x0000000000000003, 0⟩ = .ok .sum128 ∧
  decode ⟨0x0000000000000004, 0⟩ = .ok .sum ∧
  decode ⟨0x0000000000000005, 0⟩ = .ok .size

/-- Decoding undoes encoding, for every command and every value of its operands (R61, R64, R65, R68). -/
def Obligations.DecodeInvertsEncode : Prop :=
  ∀ i : Instr, i.wf = true → decode (encode i) = .ok i

/-- Encoding undoes decoding: what decodes is well-formed, its word is the only one for it, and a WRITE keeps its beat
(R63, R68). -/
def Obligations.EncodeInvertsDecode : Prop :=
  ∀ (c : Command) (i : Instr), decode c = .ok i →
    i.wf = true ∧ (encode i).cmd = c.cmd ∧ ∀ n data, i = .write n data → data = c.data

/-- Exactly the legal words of R63 decode, whatever DATA is. Rests on R63 and R68; the decoder's own reasons are the model's
(log 10) and are not named. -/
def Obligations.LegalWordsDecode : Prop :=
  ∀ (cmd : BitVec 64) (data : BitVec 128), (∃ i, decode ⟨cmd, data⟩ = .ok i) ↔
    rsvField cmd = 0 ∧
      ((opField cmd = 1 ∧ nField cmd = 0) ∨
       (opField cmd = 2 ∧ (nField cmd).toNat ≤ 16 ∧ immField cmd = 0) ∨
       ((opField cmd = 3 ∨ opField cmd = 4 ∨ opField cmd = 5) ∧ nField cmd = 0 ∧ immField cmd = 0))

/-- The two forms of R63 agree: a word is legal exactly when it matches a row of the opcode table and meets the row's extra
condition, and no word matches two rows. The spec marks this as its own inference ("derived: from rule R62"). -/
def Obligations.OpcodeTableAgreesWithLegality : Prop :=
  (∀ cmd, legal cmd = true ↔ ∃ r ∈ opcodeTable, r.matchesWord cmd = true ∧ r.meetsLimit cmd = true) ∧
  ∀ cmd, ∀ r ∈ opcodeTable, ∀ q ∈ opcodeTable, r.matchesWord cmd = true → q.matchesWord cmd = true → r = q

/-! ## A step -/

/-- A step runs the decoded command: with a command waiting and no fault, a legal word's step is `exec` of the command it
decodes to, on the same state (60_exceptions.md R156). -/
def Obligations.StepRunsDecodedCommand : Prop :=
  ∀ (s : State) (c : Command) (i : Instr),
    s.prog[s.pc]? = some c → statusFault s.status = false → decode c = .ok i → step s = exec i s

/-- Every command completes in one step, with exactly one response and the index moved on by one, and without a command
the engine waits and keeps its state (10_state.md R29; 70_reset_and_hazards.md R179). That `pc` starts at 0 is R29's; that an
engine whose host has no more commands idles, as a step that changes nothing, is the model's reading (log 6). -/
def Obligations.EveryCommandAnswersOnce : Prop :=
  State.reset.pc = 0 ∧
  (∀ (s : State) (c : Command), s.prog[s.pc]? = some c →
    ∃ t r, step s = .next t ∧ Answered s t r ∧
      (r.kind = .err ↔ statusFault t.status = true)) ∧
  (∀ s : State, s.prog[s.pc]? = none → s.nextRuns = [] → step s = .next s)

/-- ILLEGAL_COMMAND: a command accepted while `STATUS.FAULT = 0` whose word is one of those R151 lists raises it and does
nothing else, whatever DATA is; no other word raises it, since every other word is executed. -/
def Obligations.IllegalCommandRaises : Prop :=
  ∀ (s : State) (c : Command), s.prog[s.pc]? = some c → statusFault s.status = false →
    ((opField c.cmd = 0 ∨ 6 ≤ (opField c.cmd).toNat ∨ rsvField c.cmd ≠ 0 ∨
        (nField c.cmd ≠ 0 ∧ opField c.cmd ≠ 2) ∨ (16 < (nField c.cmd).toNat ∧ opField c.cmd = 2) ∨
        (immField c.cmd ≠ 0 ∧ opField c.cmd ≠ 1)) →
      ∃ t, step s = .next t ∧ statusFault t.status = true ∧ statusCause t.status = 1 ∧ t.fcmd = c.cmd ∧
        Answered s t ⟨.err, 1⟩ ∧ t.digest = s.digest ∧ t.freeCount = s.freeCount) ∧
    (¬ (opField c.cmd = 0 ∨ 6 ≤ (opField c.cmd).toNat ∨ rsvField c.cmd ≠ 0 ∨
        (nField c.cmd ≠ 0 ∧ opField c.cmd ≠ 2) ∨ (16 < (nField c.cmd).toNat ∧ opField c.cmd = 2) ∨
        (immField c.cmd ≠ 0 ∧ opField c.cmd ≠ 1)) →
      ∃ i, decode c = .ok i ∧ step s = exec i s)

/-- Fault entry (R153): FAULT, CAUSE, FCMD and the ERR response, for both causes; the digest is not written by it. -/
def Obligations.FaultEntryRecords : Prop :=
  ∀ (f : FaultCause) (cmd : BitVec 64) (s : State),
    statusFault (raiseFault f cmd s).status = true ∧
    (statusCause (raiseFault f cmd s).status = match f with | .illegalCommand => 1 | .blockPrecondition => 2) ∧
    (∀ b, 4 ≤ b → (raiseFault f cmd s).status.getLsbD b = s.status.getLsbD b) ∧
    (raiseFault f cmd s).fcmd = cmd ∧ (raiseFault f cmd s).digest = s.digest ∧
    (raiseFault f cmd s).freeCount = s.freeCount ∧
    Answered s (raiseFault f cmd s) ⟨.err, match f with | .illegalCommand => 1 | .blockPrecondition => 2⟩

/-- The fault state (R155): while `STATUS.FAULT = 1` every command, whatever its word, is answered ERR with the cause, and
after any number of commands nothing else has changed and the run is not a successful one. -/
def Obligations.FaultStateRefusesEveryCommand : Prop :=
  ∀ (k : Nat) (s : State), statusFault s.status = true → s.pc + k ≤ s.prog.length →
    steps k s = .next
        { s with
          pc := s.pc + k
          responses := s.responses ++ List.replicate k ⟨.err, (statusCause s.status).zeroExtend 128⟩ } ∧
    ∀ t, steps k s = .next t → ¬ t.succeeded

/-- There is no return from a fault and no nesting (R157): a command issued in the fault state changes neither STATUS, FCMD nor
the digest, and a step that leaves it is a reset, which restores the digest of R35 and clears STATUS and FCMD. -/
def Obligations.OnlyResetLeavesFaultState : Prop :=
  (∀ (s : State) (c : Command), statusFault s.status = true → s.prog[s.pc]? = some c →
    ∃ t, step s = .next t ∧ t.status = s.status ∧ t.fcmd = s.fcmd ∧ t.digest = s.digest) ∧
  ∀ s t : State, statusFault s.status = true → step s = .next t → statusFault t.status = false →
    s.prog[s.pc]? = none ∧ t.status = 0 ∧ t.fcmd = 0 ∧ t.digest.seed = 0 ∧ t.digest.h1 = 0 ∧ t.digest.h2 = 0 ∧
      t.digest.tailLen = 0 ∧ t.digest.totalLen = 0

/-- STATUS (10_state.md R30): what the host reads of it, its reset value, its legal values, kept by every step, and who writes
it: fault entry, whose value is `FaultEntryRecords`, and only out of the fault state, and reset. `faultOut` is R159's level output. -/
def Obligations.StatusReadsAndWriters : Prop :=
  (∀ s : State, (readStatus s).getLsbD 0 = statusFault s.status ∧ (readStatus s).extractLsb' 1 3 = statusCause s.status ∧
    (∀ b, 4 ≤ b → (readStatus s).getLsbD b = false) ∧ faultOut s = (readStatus s).getLsbD 0) ∧
  State.reset.status = 0 ∧
  (∀ s t : State, s.statusLegal → step s = .next t → t.statusLegal) ∧
  (∀ s : State, s.statusLegal → (statusCause s.status = 0 ∨ statusCause s.status = 1 ∨ statusCause s.status = 2) ∧
    (statusCause s.status = 0 ↔ statusFault s.status = false)) ∧
  (∀ s t : State, step s = .next t →
    t.status = s.status ∨
      (statusFault s.status = false ∧ ∃ f c, s.prog[s.pc]? = some c ∧ t.status = (raiseFault f c.cmd s).status) ∨
      (s.prog[s.pc]? = none ∧ t.status = 0))

/-- FCMD (10_state.md R31): 0 after reset, the word of the command that faulted at fault entry, and otherwise as it was. -/
def Obligations.FcmdHoldsFaultedCommand : Prop :=
  State.reset.fcmd = 0 ∧ (∀ s : State, readFcmd s = s.fcmd) ∧
  ∀ s t : State, step s = .next t →
    (t.fcmd = s.fcmd ∧ statusFault t.status = statusFault s.status) ∨
    (statusFault s.status = false ∧ statusFault t.status = true ∧ ∃ c, s.prog[s.pc]? = some c ∧ t.fcmd = c.cmd) ∨
    (s.prog[s.pc]? = none ∧ t.fcmd = 0 ∧ t.status = 0)

/-! ## INIT -/

/-- INIT (40_writer.md R80): for every seed and state, the new digest, the response, and its frame: the tail's bytes, STATUS,
FCMD and the host's data are as they were. With seed 0 the digest is that of reset (R35), but for stale bytes. The seed is
bits 63:32 of the word, a word with the opcode of INIT and a nonzero N or RSV is no INIT, and INIT does not clear a fault. -/
def Obligations.InitStartsDigest : Prop :=
  (∀ (seed : BitVec 32) (s : State), ∃ t, exec (.init seed) s = .next t ∧ Answered s t ⟨.ack, 0⟩ ∧ StatusKept s t ∧
    t.digest.seed = seed ∧ t.digest.h1.toNat = seed.toNat ∧ t.digest.h2.toNat = seed.toNat ∧
    t.digest.tailLen = 0 ∧ t.digest.totalLen = 0 ∧
    (∀ o, tailByte t.digest o = tailByte s.digest o) ∧
    (seed = 0 → ∀ k, t.digest.Same (Digest.reset k))) ∧
  (∀ c : Command, opField c.cmd = 1 → nField c.cmd = 0 → rsvField c.cmd = 0 →
    decode c = .ok (.init (c.cmd.extractLsb' 32 32))) ∧
  (∀ c : Command, opField c.cmd = 1 → (nField c.cmd ≠ 0 ∨ rsvField c.cmd ≠ 0) → ∃ e, decode c = .error e) ∧
  ∀ (s : State) (c : Command), statusFault s.status = true → s.prog[s.pc]? = some c → opField c.cmd = 1 →
    ∃ t, step s = .next t ∧ t.status = s.status ∧ t.digest = s.digest

/-! ## WRITE -/

/-- MixTail (R83): the tail is dispatched to BM and emptied exactly when it is full, and the check comes before BM. -/
def Obligations.MixTailChecksFullTail : Prop :=
  ∀ g : Digest,
    (g.tailLen.toNat ≠ 16 → mixTail g = .error .blockPrecondition) ∧
    (g.tailLen.toNat = 16 → ∃ k, mixTail g = .ok k ∧ k.tailLen = 0 ∧ (k.h1, k.h2) = bm g.h1 g.h2 (memRead g.tail 0 16) ∧
      k.seed = g.seed ∧ k.tail = g.tail ∧ k.totalLen = g.totalLen)

/-- The tail's primitives (20_memory.md R41), inside their precondition: a read gives as many bytes as were asked for, the
bytes written are read back, and every other byte of the tail is as it was. -/
def Obligations.TailReadsBackWhatWasWritten : Prop :=
  ∀ (tail : Vector Byte 16) (off : Nat) (d : List Byte), off + d.length ≤ 16 →
    memRead (memWrite tail off d) off d.length = d ∧
    (∀ o, o < 16 → (o < off ∨ off + d.length ≤ o) → (memWrite tail off d)[o]? = tail[o]?) ∧
    ∀ n, off + n ≤ 16 → (memRead tail off n).length = n ∧ ∀ j, j < n → (memRead tail off n)[j]? = tail[off + j]?

/-- WRITE (R81 to R88), from every state at rest (`tailLen` 0 to 15, R25), for every byte count 0 to 16 and every beat: it
completes with ACK; with `p` the pending bytes and then the data, the accumulators take `p`'s first block where `p` has one,
the rest of `p` is pending, and `totalLen` grows by N modulo 2^64; N = 0 changes nothing at all. The count of dispatches is
the spec's inference (R87). -/
def Obligations.WriteAppendsItsBytes : Prop :=
  ∀ (n : BitVec 5) (data : BitVec 128) (s : State), n.toNat ≤ 16 → s.digest.tailLen.toNat ≤ 15 →
    ∃ t, exec (.write n data) s = .next t ∧ Answered s t ⟨.ack, 0⟩ ∧ StatusKept s t ∧
      t.digest.seed = s.digest.seed ∧
      t.digest.tailLen.toNat = (s.digest.tailLen.toNat + n.toNat) % 16 ∧
      t.digest.totalLen.toNat = (s.digest.totalLen.toNat + n.toNat) % 2 ^ 64 ∧
      (s.digest.tailLen.toNat + n.toNat < 16 →
        t.digest.h1 = s.digest.h1 ∧ t.digest.h2 = s.digest.h2 ∧
        t.digest.pending = s.digest.pending ++ beatBytes n.toNat data) ∧
      (16 ≤ s.digest.tailLen.toNat + n.toNat →
        (t.digest.h1, t.digest.h2)
          = bm s.digest.h1 s.digest.h2 ((s.digest.pending ++ beatBytes n.toNat data).take 16) ∧
        t.digest.pending = (s.digest.pending ++ beatBytes n.toNat data).drop 16) ∧
      (n = 0 → t.digest = s.digest)

/-- Where WRITE stores (R82, R85), from every state at rest: the first bytes that fit go to the offsets from `tailLen` on,
where the tail held some; what is left after the blocks goes to the offsets from 0 on; every other byte of the tail is as it
was. -/
def Obligations.WriteStoresOnlyItsBytes : Prop :=
  ∀ (n : BitVec 5) (data : BitVec 128) (s t : State), n.toNat ≤ 16 → s.digest.tailLen.toNat ≤ 15 →
    exec (.write n data) s = .next t →
    ∀ used, used = (if 0 < s.digest.tailLen.toNat then min n.toNat (16 - s.digest.tailLen.toNat) else 16 * (n.toNat / 16)) →
      (0 < s.digest.tailLen.toNat → ∀ i, i < used → tailByte t.digest (s.digest.tailLen.toNat + i) = some (lane data i)) ∧
      (∀ i, i < n.toNat - used → tailByte t.digest i = some (lane data (used + i))) ∧
      (∀ o, n.toNat - used ≤ o →
        ¬ (0 < s.digest.tailLen.toNat ∧ s.digest.tailLen.toNat ≤ o ∧ o < s.digest.tailLen.toNat + used) →
        tailByte t.digest o = tailByte s.digest o)

/-- The data beat (30_encoding.md R65): a WRITE's data is its first N lanes, lane 0 first; the lanes from N on, and all of DATA
for every other command, change nothing; and data of any length is the data of some sequence of WRITEs. -/
def Obligations.UnusedLanesAreIgnored : Prop :=
  (∀ (n : Nat) (data : BitVec 128), (beatBytes n data).length = n ∧
    ∀ i, i < n → (beatBytes n data)[i]? = some (data.extractLsb' (8 * i) 8)) ∧
  (∀ (n : BitVec 5) (d e : BitVec 128) (s : State), n.toNat ≤ 16 →
    (∀ i, i < n.toNat → d.extractLsb' (8 * i) 8 = e.extractLsb' (8 * i) 8) →
    exec (.write n d) s = exec (.write n e) s) ∧
  (∀ (cmd : BitVec 64) (d e : BitVec 128), opField cmd ≠ 2 → decode ⟨cmd, d⟩ = decode ⟨cmd, e⟩) ∧
  ∀ data : List Byte, ∃ is : List Instr, (∀ i ∈ is, isWrite i = true) ∧ writtenBytes is = data

/-- BLOCK_PRECONDITION (R152), in the states that could reach it, whose `tailLen` is over 16 and which no run reaches (log 8): a
WRITE of at least one byte raises it and ends with ERR 2, its own word in FCMD; its digest is free (R34) and not spoken of. -/
def Obligations.BlockPreconditionRaises : Prop :=
  ∀ (n : BitVec 5) (data : BitVec 128) (s : State), 16 < s.digest.tailLen.toNat → 0 < n.toNat → n.toNat ≤ 16 →
    ∃ t, exec (.write n data) s = .next t ∧ statusFault t.status = true ∧ statusCause t.status = 2 ∧
      t.fcmd = (encode (.write n data)).cmd ∧ Answered s t ⟨.err, 2⟩

/-- BLOCK_PRECONDITION is unreachable (R158, the spec's inference): from a state at rest no number of steps raises it. -/
def Obligations.BlockPreconditionUnreachable : Prop :=
  ∀ (k : Nat) (s t : State), s.digest.tailLen.toNat ≤ 15 → statusCause s.status ≠ 2 → steps k s = .next t →
    t.digest.tailLen.toNat ≤ 15 ∧ statusCause t.status ≠ 2

/-- Who writes the seed and the accumulators (10_state.md R22, R23), in states at rest: INIT, a reset, and for the accumulators
a WRITE that completes a block. -/
def Obligations.SeedAndAccumulatorWriters : Prop :=
  ∀ s t : State, s.digest.tailLen.toNat ≤ 15 → step s = .next t →
    (t.digest.seed ≠ s.digest.seed ∨ t.digest.h1 ≠ s.digest.h1 ∨ t.digest.h2 ≠ s.digest.h2) →
    (s.prog[s.pc]? = none ∧ s.nextRuns ≠ []) ∨
    (statusFault s.status = false ∧ ∃ c, s.prog[s.pc]? = some c ∧
      ((∃ seed, decode c = .ok (.init seed)) ∨
       (∃ n data, decode c = .ok (.write n data) ∧ 16 ≤ s.digest.tailLen.toNat + n.toNat ∧
          t.digest.seed = s.digest.seed)))

/-! ## SUM128, SUM, SIZE -/

/-- SUM128 (42_finalization.md R123): from every state it answers the finalized pair, `h1'` in bits 63:0 and `h2'` in bits
127:64, and changes nothing else; on a digest that stands for a stream the pair is the hash of that stream. That a digest
stands for its stream is the spec's inference (R27). Its word is the only one with its opcode. -/
def Obligations.Sum128ReturnsHash : Prop :=
  (∀ c : Command, opField c.cmd = 3 → c.cmd ≠ 0x0000000000000003 → ∃ e, decode c = .error e) ∧
  ∀ s : State, ∃ t r, exec .sum128 s = .next t ∧ t = { s with pc := s.pc + 1, responses := s.responses ++ [r] } ∧
    r.kind = .value ∧ r.rsp.extractLsb' 0 64 = (finalize s.digest).1 ∧ r.rsp.extractLsb' 64 64 = (finalize s.digest).2 ∧
    ∀ stream, s.digest.Represents stream → finalize s.digest = murmur3 s.digest.seed stream

/-- SUM (R124): from every state it answers the finalized pair, most significant bytes first, `h1'` in lanes 0 to 7 and `h2'` in
lanes 8 to 15, and changes nothing else. Its word is the only one with its opcode. -/
def Obligations.SumReturnsBigEndianBytes : Prop :=
  (∀ c : Command, opField c.cmd = 4 → c.cmd ≠ 0x0000000000000004 → ∃ e, decode c = .error e) ∧
  ∀ s : State, ∃ t r, exec .sum s = .next t ∧ t = { s with pc := s.pc + 1, responses := s.responses ++ [r] } ∧
    r.kind = .value ∧
    ∀ j, j < 8 → lane r.rsp j = (finalize s.digest).1.extractLsb' (56 - 8 * j) 8 ∧
      lane r.rsp (8 + j) = (finalize s.digest).2.extractLsb' (56 - 8 * j) 8

/-- SIZE (R125): from every state it answers 16 and changes nothing else; its word is the only one with its opcode. -/
def Obligations.SizeReturnsSixteen : Prop :=
  (∀ s : State, exec .size s = .next { s with pc := s.pc + 1, responses := s.responses ++ [⟨.value, 16⟩] }) ∧
  (∀ data, decode ⟨0x0000000000000005, data⟩ = .ok .size) ∧
  ∀ c : Command, opField c.cmd = 5 → c.cmd ≠ 0x0000000000000005 → ∃ e, decode c = .error e

/-- SUM and SUM128 agree in every state (R127, the spec's inference). -/
def Obligations.SumAgreesWithSum128 : Prop :=
  ∀ s : State, ∃ t u x y, exec .sum s = .next t ∧ t.responses = s.responses ++ [x] ∧
    exec .sum128 s = .next u ∧ u.responses = s.responses ++ [y] ∧
    responseBytes x.rsp = beBytes64 (y.rsp.extractLsb' 0 64) ++ beBytes64 (y.rsp.extractLsb' 64 64)

/-- SUM128, SUM and SIZE may stand anywhere (R126): any number of them complete and change no state but the host's list of
responses and index, and whatever commands follow give the digest, STATUS, FCMD and responses they would have given without
them. -/
def Obligations.ReadsMayStandAnywhere : Prop :=
  ∀ (reads : List Instr) (s : State), (∀ i ∈ reads, isRead i = true) →
    ∃ t, execList reads s = .next t ∧ t.digest = s.digest ∧ StatusKept s t ∧
      ∀ (is : List Instr) (u : State), execList is s = .next u →
        ∃ v, execList is t = .next v ∧ v.digest = u.digest ∧ StatusKept u v ∧
          v.responses.drop t.responses.length = u.responses.drop s.responses.length

/-- SUM128 directly after reset returns `(0, 0)` (70_reset_and_hazards.md R171, the spec's inference; the source's known vector),
whatever the tail bytes are. -/
def Obligations.FreshEngineHashesToZero : Prop :=
  ∃ t, exec .sum128 State.reset = .next t ∧ t.responses = [⟨.value, 0⟩]

/-! ## Words and bytes -/

/-- Byte orders (20_memory.md R43, R45): byte `i` of a block word is its bits `8*i+7 : 8*i`; output is the opposite order, so
that a word's big-endian bytes, reversed, decode to it. -/
def Obligations.ByteOrdersAreOpposite : Prop :=
  (∀ b : List Byte, b.length = 8 → ∀ i, i < 8 → some ((le64 b).extractLsb' (8 * i) 8) = b[i]?) ∧
  (∀ (x : U64) (i : Nat), i < 8 → (beBytes64 x)[i]? = some (x.extractLsb' (56 - 8 * i) 8)) ∧
  ∀ x : U64, le64 (beBytes64 x).reverse = x

/-- The partial words of finalization are little-endian words with missing bytes taken as zero (R44, the spec's inference). -/
def Obligations.TailWordsAreLittleEndian : Prop :=
  ∀ t : List Byte, t.length ≤ 15 →
    xorBytes t 0 (min t.length 8) = le64 ((t ++ List.replicate 16 0).take 8) ∧
    xorBytes t 8 (t.length - 8) = le64 (((t ++ List.replicate 16 0).drop 8).take 8)

/-- The block mixer's transform (41_block_mixer.md R101), with the constants of R100 written out and the rotations those of the
library, and the values R101 gives. -/
def Obligations.BlockMixerTransform : Prop :=
  (∀ (h1 h2 : U64) (b : List Byte), b.length = 16 → ∀ k1 k2 g1 g2 : U64,
    k1 = ((le64 (b.take 8) * 0x87c37b91114253d5).rotateLeft 31) * 0x4cf5ad432745937f →
    k2 = ((le64 (b.drop 8) * 0x4cf5ad432745937f).rotateLeft 33) * 0x87c37b91114253d5 →
    g1 = ((h1 ^^^ k1).rotateLeft 27 + h2) * 5 + 0x52dce729 →
    g2 = ((h2 ^^^ k2).rotateLeft 31 + g1) * 5 + 0x38495ab5 →
    bm h1 h2 b = (g1, g2)) ∧
  bm 0 0 (List.replicate 16 0) = (0x52dce729, 0x1d699de82) ∧ (0xffffffffffffffff : U64) * 5 = 0xfffffffffffffffb ∧
  bm 0 0 [0, 1, 2, 3, 4, 5, 6, 7, 8, 9, 10, 11, 12, 13, 14, 15] = (0xdcac505ea5c458df, 0x72927c4be244042d)

/-- The finalizer's steps (42_finalization.md R120), and the values R120 gives. -/
def Obligations.FinalizerSteps : Prop :=
  (∀ k x y : U64, x = (k ^^^ (k >>> 33)) * 0xff51afd7ed558ccd → y = (x ^^^ (x >>> 33)) * 0xc4ceb9fe1a85ec53 →
    fmix64 k = y ^^^ (y >>> 33)) ∧
  fmix64 0 = 0 ∧ fmix64 0xffffffffffffffff = 0x64b5720b4b825f21 ∧ fmix64 1 = 0xb456bcfc34c2cb2c

/-- Which groups of tail bytes finalization folds in (R121, C1): none for an empty tail, `k1` alone for 1 to 8 bytes, both for 9
to 15. -/
def Obligations.TailGroupsFoldedWhenPresent : Prop :=
  ∀ (h1 h2 : U64) (t : List Byte), t.length ≤ 15 →
    (t.length = 0 → tailWords h1 h2 t t.length = (h1, h2)) ∧
    (1 ≤ t.length → (tailWords h1 h2 t t.length).1
      = h1 ^^^ ((xorBytes t 0 (min t.length 8) * 0x87c37b91114253d5).rotateLeft 31) * 0x4cf5ad432745937f) ∧
    (t.length ≤ 8 → (tailWords h1 h2 t t.length).2 = h2) ∧
    (9 ≤ t.length → (tailWords h1 h2 t t.length).2
      = h2 ^^^ ((xorBytes t 8 (t.length - 8) * 0x4cf5ad432745937f).rotateLeft 33) * 0x87c37b91114253d5)

/-- The steps of finalization after the tail words (R122): the length, the first cross-mix, `fmix64`, the second cross-mix, each
cross-mix's second sum taking its first; nothing else of the digest enters. -/
def Obligations.FinalizationSteps : Prop :=
  ∀ (g : Digest) (a b : U64), tailWords g.h1 g.h2 g.pending g.tailLen.toNat = (a, b) → ∀ x y u v : U64,
    x = (a ^^^ g.totalLen) + (b ^^^ g.totalLen) → y = (b ^^^ g.totalLen) + x →
    u = fmix64 x + fmix64 y → v = fmix64 y + u → finalize g = (u, v)

/-- The rotations lose no bit (41_block_mixer.md R103): bit `i` goes to bit `(i + r) mod 64`, and each is a bijection. -/
def Obligations.RotationsAreBijections : Prop :=
  ∀ r, (r = 27 ∨ r = 31 ∨ r = 33) →
    (∀ (x : U64) (i : Nat), i < 64 → (rotl64 x r).getLsbD ((i + r) % 64) = x.getLsbD i) ∧
    ∀ y : U64, ∃ x : U64, rotl64 x r = y ∧ ∀ z : U64, rotl64 z r = y → z = x

/-! ## Streams -/

/-- A digest follows its stream (10_state.md R27, the spec's inference): from a digest that stands for a stream every
well-formed command completes in one that stands for the stream after it. -/
def Obligations.DigestFollowsStream : Prop :=
  ∀ (i : Instr) (s : State) (stream : List Byte), i.wf = true → s.digest.Represents stream →
    ∃ t, exec i s = .next t ∧ t.digest.Represents (streamAfter stream i)

/-- Chunk invariance (R89): from a state at rest, two sequences of WRITEs of the same bytes end in the same digest, but for
stale bytes, and in the same hash. That all of the digest agrees, and not its hash alone, is the spec's inference. -/
def Obligations.ChunkingDoesNotMatter : Prop :=
  ∀ (ws vs : List Instr) (s : State), (∀ i ∈ ws, isWrite i = true) → (∀ i ∈ vs, isWrite i = true) →
    s.digest.tailLen.toNat ≤ 15 → writtenBytes ws = writtenBytes vs →
    ∃ t u, execList ws s = .next t ∧ execList vs s = .next u ∧ t.digest.Same u.digest ∧
      finalize t.digest = finalize u.digest

/-- The engine computes the hash: from any state, INIT and then any sequence of WRITEs leaves a digest whose finalization is
the one-shot hash of the bytes written under the seed (R53, R89; 43_convenience.md R141). -/
def Obligations.EngineComputesMurmur3 : Prop :=
  ∀ (seed : BitVec 32) (ws : List Instr) (s : State), (∀ i ∈ ws, isWrite i = true) →
    ∃ t, execList (.init seed :: ws) s = .next t ∧ StatusKept s t ∧ t.digest.Represents (writtenBytes ws) ∧
      t.digest.seed = seed ∧ finalize t.digest = murmur3 seed (writtenBytes ws)

/-- No command reads a stale tail byte (10_state.md R24, U5; determinism, R145): on two states at rest whose digests agree but
for stale bytes, every well-formed command gives the same response, and digests that again agree but for stale bytes. -/
def Obligations.StaleBytesAreNeverRead : Prop :=
  ∀ (i : Instr) (s u : State), i.wf = true → s.digest.tailLen.toNat ≤ 15 → s.digest.Same u.digest →
    ∃ t v r, exec i s = .next t ∧ exec i u = .next v ∧ Answered s t r ∧ Answered u v r ∧ t.digest.Same v.digest

/-- Fork independence (R36, R146; the spec's inference): two copies of an engine that has taken a prefix, written with
different suffixes, hash each its own stream, and the one left alone still hashes the prefix. -/
def Obligations.ForksAreIndependent : Prop :=
  ∀ (seed : BitVec 32) (ps xs ys : List Instr) (s a : State),
    (∀ i ∈ ps, isWrite i = true) → (∀ i ∈ xs, isWrite i = true) → (∀ i ∈ ys, isWrite i = true) →
    execList (.init seed :: ps) s = .next a →
    finalize a.digest = murmur3 seed (writtenBytes ps) ∧
    ∃ b c, execList xs (fork a).1 = .next b ∧ execList ys (fork a).2 = .next c ∧
      finalize b.digest = murmur3 seed (writtenBytes ps ++ writtenBytes xs) ∧
      finalize c.digest = murmur3 seed (writtenBytes ps ++ writtenBytes ys)

/-! ## The host's pseudo-commands -/

/-- `WRITESTR` (43_convenience.md R142): `WRITE 0` for no data, else `ceil(L/16)` WRITEs, command `i` carrying bytes `16*i` to
`min(16*i+16, L)-1`; their data is the data. -/
def Obligations.WriteStrSplitsData : Prop :=
  ∀ data : List Byte,
    assembleLine (.writeStr data) = some ((writeStrInstrs data).map encode) ∧
    (data = [] → writeStrInstrs data = [.write 0 0]) ∧
    (data ≠ [] → (writeStrInstrs data).length = (data.length + 15) / 16 ∧
      ∀ i, i < (data.length + 15) / 16 →
        ((writeStrInstrs data)[i]?).map dataBytes = some ((data.drop (16 * i)).take 16)) ∧
    (∀ i ∈ writeStrInstrs data, isWrite i = true) ∧ writtenBytes (writeStrInstrs data) = data

/-- `HASH128` (R141, R143), as a run: from any state without a fault, the steps of its commands end the run without a fault,
and the last response is the one-shot hash; without a seed it is `HASH128 data, 0`. That a run is loaded as `prog` at `pc = 0`
is the model's (log 4). -/
def Obligations.HashProgramReturnsHash : Prop :=
  ∀ (data : List Byte) (seed : BitVec 32) (s : State),
    statusFault s.status = false → s.pc = 0 → assembleLine (.hash128 data (some seed)) = some s.prog →
    assembleLine (.hash128 data none) = assembleLine (.hash128 data (some 0)) ∧
    ∃ t, steps s.prog.length s = .next t ∧ t.succeeded ∧
      t.responses.getLast? = some ⟨.value, sum128Value (murmur3 seed data)⟩

/-- `SUMP` (R144): the host issues SUM, whatever its own bytes are, and gets them followed by the 16 bytes of the pair. -/
def Obligations.SumpAppendsDigest : Prop :=
  ∀ (before : List Byte) (s : State),
    assembleLine (.sump before) = some [encode .sum] ∧
    ∃ t r, exec .sum s = .next t ∧ t.responses = s.responses ++ [r] ∧
      sumpResult before r.rsp = before ++ (beBytes64 (finalize s.digest).1 ++ beBytes64 (finalize s.digest).2) ∧
      (sumpResult before r.rsp).length = before.length + 16

/-! ## Reset and invariants -/

/-- The state after reset (10_state.md R35), and that its digest is the one INIT with seed 0 gives. -/
def Obligations.ResetStateValues : Prop :=
  State.reset.digest.seed = 0 ∧ State.reset.digest.h1 = 0 ∧ State.reset.digest.h2 = 0 ∧ State.reset.digest.tailLen = 0 ∧
  State.reset.digest.totalLen = 0 ∧ State.reset.status = 0 ∧ State.reset.fcmd = 0 ∧ State.reset.pc = 0 ∧
  ∀ g : Digest, (initDigest 0 g).Same State.reset.digest

/-- Reset taken as an input (70_reset_and_hazards.md R170): its values, with no response. That it comes when a run has ended and
the host has a further run, which it then loads, and that the list of responses starts again, is the model's (log 5). -/
def Obligations.ResetTakenBetweenRuns : Prop :=
  ∀ (s : State) (p : List Command) (rest : List (List Command)),
    s.prog[s.pc]? = none → s.nextRuns = p :: rest →
    ∃ t, step s = .next t ∧ t.digest.seed = 0 ∧ t.digest.h1 = 0 ∧ t.digest.h2 = 0 ∧ t.digest.tailLen = 0 ∧
      t.digest.totalLen = 0 ∧ t.status = 0 ∧ t.fcmd = 0 ∧ t.pc = 0 ∧ t.prog = p ∧ t.nextRuns = rest ∧ t.responses = []

/-- The invariant holds at reset, and the digest stands for the empty stream. -/
def Obligations.InvariantHoldsAtReset : Prop :=
  State.reset.Inv ∧ State.reset.digest.Represents []

/-- Every step keeps the invariant: `tailLen` at rest and the length modulo 16, STATUS legal and without BLOCK_PRECONDITION, FCMD
0 without a fault, one response per command (R25, R27, R29, R30, R31, R66). The third line of R27 and R158 are the spec's
inferences. -/
def Obligations.EveryStepKeepsInvariant : Prop :=
  ∀ s t : State, s.Inv → step s = .next t → t.Inv
end

