-- ==== Sys2Proof/Laws/Codec.lean ====
section
/-! SUPPORT. The fields of a command word and the word of given fields (30_encoding.md R61, R63). -/

namespace Sys2Proof

/-- The bits of a command word, field by field. -/
theorem getLsbD_commandWord (op : BitVec 4) (n : BitVec 5) (imm : BitVec 32) (i : Nat) (hi : i < 64) :
    (commandWord op n imm).getLsbD i =
      if i < 4 then op.getLsbD i else if i < 9 then n.getLsbD (i - 4)
      else if i < 32 then false else imm.getLsbD (i - 32) := by
  simp only [commandWord, BitVec.truncate_eq_setWidth, BitVec.getLsbD_or, BitVec.getLsbD_shiftLeft, BitVec.getLsbD_setWidth]
  split
  · simp [show i < 32 by omega, show i < 4 by omega, hi]
  · split
    · simp [show i < 32 by omega, show ¬ i < 4 by omega, show i - 4 < 64 by omega, hi, BitVec.getLsbD_of_ge op i (by omega)]
    · split
      · simp [*, BitVec.getLsbD_of_ge op i (by omega), BitVec.getLsbD_of_ge n (i - 4) (by omega)]
      · simp [*, show i - 32 < 64 by omega, BitVec.getLsbD_of_ge op i (by omega),
          BitVec.getLsbD_of_ge n (i - 4) (by omega)]

theorem opField_commandWord (op : BitVec 4) (n : BitVec 5) (imm : BitVec 32) :
    opField (commandWord op n imm) = op := by
  apply BitVec.eq_of_getLsbD_eq
  intro i hi
  rw [opField, BitVec.getLsbD_extractLsb', getLsbD_commandWord _ _ _ _ (by omega), if_pos (by omega)]
  simp [hi]

theorem nField_commandWord (op : BitVec 4) (n : BitVec 5) (imm : BitVec 32) :
    nField (commandWord op n imm) = n := by
  apply BitVec.eq_of_getLsbD_eq
  intro i hi
  rw [nField, BitVec.getLsbD_extractLsb', getLsbD_commandWord _ _ _ _ (by omega), if_neg (by omega), if_pos (by omega)]
  simp [hi]

theorem rsvField_commandWord (op : BitVec 4) (n : BitVec 5) (imm : BitVec 32) :
    rsvField (commandWord op n imm) = 0 := by
  apply BitVec.eq_of_getLsbD_eq
  intro i hi
  rw [rsvField, BitVec.getLsbD_extractLsb', getLsbD_commandWord _ _ _ _ (by omega), if_neg (by omega), if_neg (by omega),
    if_pos (by omega)]
  simp

theorem immField_commandWord (op : BitVec 4) (n : BitVec 5) (imm : BitVec 32) :
    immField (commandWord op n imm) = imm := by
  apply BitVec.eq_of_getLsbD_eq
  intro i hi
  rw [immField, BitVec.getLsbD_extractLsb', getLsbD_commandWord _ _ _ _ (by omega), if_neg (by omega), if_neg (by omega),
    if_neg (by omega)]
  simp [hi]

/-- A word whose reserved bits are 0 is the word of its fields. -/
theorem commandWord_fields (cmd : BitVec 64) (h : rsvField cmd = 0) :
    commandWord (opField cmd) (nField cmd) (immField cmd) = cmd := by
  apply BitVec.eq_of_getLsbD_eq
  intro i hi
  have hr : 9 ≤ i → i < 32 → cmd.getLsbD i = false := by
    intro h1 h2
    have := congrArg (fun v => BitVec.getLsbD v (i - 9)) h
    simp only [rsvField, BitVec.getLsbD_extractLsb'] at this
    simpa [show i - 9 < 23 by omega, show 9 + (i - 9) = i by omega] using this
  rw [getLsbD_commandWord _ _ _ _ hi, opField, nField, immField, BitVec.getLsbD_extractLsb', BitVec.getLsbD_extractLsb',
    BitVec.getLsbD_extractLsb']
  split
  · simp [*]
  · split
    · simp [show i - 4 < 5 by omega, show 4 + (i - 4) = i by omega]
    · split
      · rw [hr (by omega) (by omega)]
      · simp [show i - 32 < 32 by omega, show 32 + (i - 32) = i by omega]

/-- A command with N and IMM 0 decodes to itself, and no other word with its opcode does. -/
theorem bareCommand_eq_ok (cmd : BitVec 64) (i j : Instr) :
    bareCommand cmd i = .ok j ↔ nField cmd = 0 ∧ immField cmd = 0 ∧ i = j := by
  unfold bareCommand
  split
  · simp_all
  · split <;> simp_all

end Sys2Proof
end

