-- ==== Sys2Proof/Laws/State.lean ====
section
/-! SUPPORT. One lemma per field per update of the state and the digest, so that no later proof unfolds a record update.
Those of the digest are proved by unfolding the update and not by `rfl` alone: `simp` then rewrites with them, where a proof by
`rfl` would have the kernel compare two digests field by field and run into the multiplications of BM. -/

namespace Sys2Proof.Machine

section Respond
variable (r : Response) (s : State)

@[simp] theorem respond_digest : (respond r s).digest = s.digest := rfl
@[simp] theorem respond_status : (respond r s).status = s.status := rfl
@[simp] theorem respond_fcmd : (respond r s).fcmd = s.fcmd := rfl
@[simp] theorem respond_pc : (respond r s).pc = s.pc + 1 := rfl
@[simp] theorem respond_prog : (respond r s).prog = s.prog := rfl
@[simp] theorem respond_responses : (respond r s).responses = s.responses ++ [r] := rfl
@[simp] theorem respond_nextRuns : (respond r s).nextRuns = s.nextRuns := rfl
@[simp] theorem respond_freeCount : (respond r s).freeCount = s.freeCount := rfl
@[simp] theorem respond_faulted : (respond r s).faulted = s.faulted := rfl

end Respond

section RaiseFault
variable (f : FaultCause) (cmd : BitVec 64) (s : State)

@[simp] theorem raiseFault_digest : (raiseFault f cmd s).digest = s.digest := rfl
@[simp] theorem raiseFault_status : (raiseFault f cmd s).status = statusWithFault f s.status := rfl
@[simp] theorem raiseFault_fcmd : (raiseFault f cmd s).fcmd = cmd := rfl
@[simp] theorem raiseFault_pc : (raiseFault f cmd s).pc = s.pc + 1 := rfl
@[simp] theorem raiseFault_prog : (raiseFault f cmd s).prog = s.prog := rfl
@[simp] theorem raiseFault_nextRuns : (raiseFault f cmd s).nextRuns = s.nextRuns := rfl
@[simp] theorem raiseFault_freeCount : (raiseFault f cmd s).freeCount = s.freeCount := rfl

end RaiseFault

section Refuse
variable (s : State)

@[simp] theorem refuse_digest : (refuse s).digest = s.digest := rfl
@[simp] theorem refuse_status : (refuse s).status = s.status := rfl
@[simp] theorem refuse_fcmd : (refuse s).fcmd = s.fcmd := rfl
@[simp] theorem refuse_pc : (refuse s).pc = s.pc + 1 := rfl
@[simp] theorem refuse_prog : (refuse s).prog = s.prog := rfl
@[simp] theorem refuse_responses : (refuse s).responses = s.responses ++ [errResponse s] := rfl
@[simp] theorem refuse_nextRuns : (refuse s).nextRuns = s.nextRuns := rfl
@[simp] theorem refuse_freeCount : (refuse s).freeCount = s.freeCount := rfl
@[simp] theorem refuse_faulted : (refuse s).faulted = s.faulted := rfl

end Refuse

section LoseDigest
variable (s : State)

@[simp] theorem loseDigest_status : (loseDigest s).status = s.status := rfl
@[simp] theorem loseDigest_fcmd : (loseDigest s).fcmd = s.fcmd := rfl
@[simp] theorem loseDigest_pc : (loseDigest s).pc = s.pc := rfl
@[simp] theorem loseDigest_prog : (loseDigest s).prog = s.prog := rfl
@[simp] theorem loseDigest_responses : (loseDigest s).responses = s.responses := rfl
@[simp] theorem loseDigest_nextRuns : (loseDigest s).nextRuns = s.nextRuns := rfl
@[simp] theorem loseDigest_freeCount : (loseDigest s).freeCount = s.freeCount + 1 := rfl

end LoseDigest

section EngineReset
variable (s : State)

@[simp] theorem engineReset_digest : (engineReset s).digest = Digest.reset s.freeCount := rfl
@[simp] theorem engineReset_status : (engineReset s).status = 0 := rfl
@[simp] theorem engineReset_fcmd : (engineReset s).fcmd = 0 := rfl
@[simp] theorem engineReset_pc : (engineReset s).pc = 0 := rfl
@[simp] theorem engineReset_prog : (engineReset s).prog = s.prog := rfl
@[simp] theorem engineReset_responses : (engineReset s).responses = [] := rfl
@[simp] theorem engineReset_nextRuns : (engineReset s).nextRuns = s.nextRuns := rfl
@[simp] theorem engineReset_freeCount : (engineReset s).freeCount = s.freeCount + 1 := rfl

end EngineReset

section ResetDigest
variable (k : Nat)

@[simp] theorem reset_seed : (Digest.reset k).seed = 0 := rfl
@[simp] theorem reset_h1 : (Digest.reset k).h1 = 0 := rfl
@[simp] theorem reset_h2 : (Digest.reset k).h2 = 0 := rfl
@[simp] theorem reset_tailLen : (Digest.reset k).tailLen = 0 := rfl
@[simp] theorem reset_totalLen : (Digest.reset k).totalLen = 0 := rfl

end ResetDigest

section InitDigest
variable (seed : BitVec 32) (g : Digest)

@[simp] theorem initDigest_seed : (initDigest seed g).seed = seed := by simp only [initDigest]
@[simp] theorem initDigest_h1 : (initDigest seed g).h1 = zext64 seed := by simp only [initDigest]
@[simp] theorem initDigest_h2 : (initDigest seed g).h2 = zext64 seed := by simp only [initDigest]
@[simp] theorem initDigest_tail : (initDigest seed g).tail = g.tail := by simp only [initDigest]
@[simp] theorem initDigest_tailLen : (initDigest seed g).tailLen = 0 := by simp only [initDigest]
@[simp] theorem initDigest_totalLen : (initDigest seed g).totalLen = 0 := by simp only [initDigest]

end InitDigest

section AddLength
variable (n : Nat) (g : Digest)

@[simp] theorem addLength_seed : (addLength n g).seed = g.seed := by simp only [addLength]
@[simp] theorem addLength_h1 : (addLength n g).h1 = g.h1 := by simp only [addLength]
@[simp] theorem addLength_h2 : (addLength n g).h2 = g.h2 := by simp only [addLength]
@[simp] theorem addLength_tail : (addLength n g).tail = g.tail := by simp only [addLength]
@[simp] theorem addLength_tailLen : (addLength n g).tailLen = g.tailLen := by simp only [addLength]
@[simp] theorem addLength_totalLen : (addLength n g).totalLen = g.totalLen + BitVec.ofNat 64 n := by simp only [addLength]
@[simp] theorem addLength_pending : (addLength n g).pending = g.pending := by
  simp only [Digest.pending, addLength_tail, addLength_tailLen]

end AddLength

section TailAppend
variable (d : List Byte) (g : Digest)

@[simp] theorem tailAppend_seed : (tailAppend d g).seed = g.seed := by simp only [tailAppend]
@[simp] theorem tailAppend_h1 : (tailAppend d g).h1 = g.h1 := by simp only [tailAppend]
@[simp] theorem tailAppend_h2 : (tailAppend d g).h2 = g.h2 := by simp only [tailAppend]
@[simp] theorem tailAppend_tail : (tailAppend d g).tail = memWrite g.tail g.tailLen.toNat d := by simp only [tailAppend]
@[simp] theorem tailAppend_tailLen :
    (tailAppend d g).tailLen = BitVec.ofNat 5 (g.tailLen.toNat + d.length) := by simp only [tailAppend]
@[simp] theorem tailAppend_totalLen : (tailAppend d g).totalLen = g.totalLen := by simp only [tailAppend]

end TailAppend

section SetAcc
variable (h : U64 × U64) (g : Digest)

@[simp] theorem setAcc_seed : (setAcc h g).seed = g.seed := by simp only [setAcc]
@[simp] theorem setAcc_h1 : (setAcc h g).h1 = h.1 := by simp only [setAcc]
@[simp] theorem setAcc_h2 : (setAcc h g).h2 = h.2 := by simp only [setAcc]
@[simp] theorem setAcc_tail : (setAcc h g).tail = g.tail := by simp only [setAcc]
@[simp] theorem setAcc_tailLen : (setAcc h g).tailLen = g.tailLen := by simp only [setAcc]
@[simp] theorem setAcc_totalLen : (setAcc h g).totalLen = g.totalLen := by simp only [setAcc]

end SetAcc

section EmptyTail
variable (g : Digest)

@[simp] theorem emptyTail_seed : (emptyTail g).seed = g.seed := by simp only [emptyTail]
@[simp] theorem emptyTail_h1 : (emptyTail g).h1 = g.h1 := by simp only [emptyTail]
@[simp] theorem emptyTail_h2 : (emptyTail g).h2 = g.h2 := by simp only [emptyTail]
@[simp] theorem emptyTail_tail : (emptyTail g).tail = g.tail := by simp only [emptyTail]
@[simp] theorem emptyTail_tailLen : (emptyTail g).tailLen = 0 := by simp only [emptyTail]
@[simp] theorem emptyTail_totalLen : (emptyTail g).totalLen = g.totalLen := by simp only [emptyTail]

end EmptyTail

section StoreRemainder
variable (d : List Byte) (g : Digest)

@[simp] theorem storeRemainder_seed : (storeRemainder d g).seed = g.seed := by simp only [storeRemainder]
@[simp] theorem storeRemainder_h1 : (storeRemainder d g).h1 = g.h1 := by simp only [storeRemainder]
@[simp] theorem storeRemainder_h2 : (storeRemainder d g).h2 = g.h2 := by simp only [storeRemainder]
@[simp] theorem storeRemainder_tail : (storeRemainder d g).tail = memWrite g.tail 0 d := by simp only [storeRemainder]
@[simp] theorem storeRemainder_tailLen : (storeRemainder d g).tailLen = BitVec.ofNat 5 d.length := by simp only [storeRemainder]
@[simp] theorem storeRemainder_totalLen : (storeRemainder d g).totalLen = g.totalLen := by simp only [storeRemainder]

end StoreRemainder

end Sys2Proof.Machine
end

