-- ==== Sys2Proof/Laws/Operands.lean ====
section
/-! SUPPORT. The data bytes of a beat (30_encoding.md R65). -/

namespace Sys2Proof.Machine

@[simp] theorem length_beatBytes (n : Nat) (data : BitVec 128) : (beatBytes n data).length = n := by
  simp [beatBytes]

theorem getElem?_beatBytes (n i : Nat) (data : BitVec 128) :
    (beatBytes n data)[i]? = if i < n then some (lane data i) else none := by
  simp only [beatBytes, List.getElem?_map]
  by_cases h : i < n <;> simp [h]

@[simp] theorem beatBytes_zero (data : BitVec 128) : beatBytes 0 data = [] := by simp [beatBytes]

@[simp] theorem length_beBytes64 (x : U64) : (beBytes64 x).length = 8 := by simp [beBytes64]

@[simp] theorem length_sumBytes (r : U64 × U64) : (sumBytes r).length = 16 := by simp [sumBytes]

end Sys2Proof.Machine
end

