-- ==== Sys2Proof/Laws/PerInstr.lean ====
section
/-! SUPPORT. Facts of each command as syntax, one lemma per constructor. -/

namespace Sys2Proof.Laws.EncodeLegal

/-- The word a well-formed command is encoded as is legal (30_encoding.md R63). -/
def Statement (i : Instr) : Prop := i.wf = true → legal (encode i).cmd = true

theorem init (seed : BitVec 32) : Statement (.init seed) := by
  intro _
  simp [legal, encode, opField_commandWord, nField_commandWord, rsvField_commandWord, immField_commandWord]

theorem write (n : BitVec 5) (data : BitVec 128) : Statement (.write n data) := by
  intro h
  simp only [Instr.wf, decide_eq_true_eq] at h
  simpa [legal, encode, opField_commandWord, nField_commandWord, rsvField_commandWord, immField_commandWord] using h

theorem sum128 : Statement .sum128 := by
  intro _
  simp [legal, encode, opField_commandWord, nField_commandWord, rsvField_commandWord, immField_commandWord]

theorem sum : Statement .sum := by
  intro _
  simp [legal, encode, opField_commandWord, nField_commandWord, rsvField_commandWord, immField_commandWord]

theorem size : Statement .size := by
  intro _
  simp [legal, encode, opField_commandWord, nField_commandWord, rsvField_commandWord, immField_commandWord]

end Sys2Proof.Laws.EncodeLegal
end

