-- ==== Sys2Proof/Laws/Tail.lean ====
section
/-! SUPPORT. The tail buffer's primitives, and the pending bytes they leave (20_memory.md R41). -/

namespace Sys2Proof.Machine

/-- A write puts `d` at its offsets and leaves every other byte. -/
theorem getElem_memWrite (tail : Vector Byte 16) (off : Nat) (d : List Byte) (o : Nat) (ho : o < 16) :
    (memWrite tail off d)[o] =
      if off ≤ o ∧ o < off + d.length then d.getD (o - off) 0 else tail[o] := by
  simp [memWrite]

/-- A write of nothing changes nothing. -/
@[simp] theorem memWrite_nil (tail : Vector Byte 16) (off : Nat) : memWrite tail off [] = tail := by
  apply Vector.ext
  intro o ho
  rw [getElem_memWrite _ _ _ _ ho]
  simp only [List.length_nil, Nat.add_zero]
  rw [if_neg (by omega)]

/-- Reading inside the buffer gives as many bytes as were asked for. -/
theorem length_memRead (tail : Vector Byte 16) (off n : Nat) (h : off + n ≤ 16) :
    (memRead tail off n).length = n := by
  simp [memRead]
  omega

/-- The bytes a read gives. -/
theorem getElem?_memRead (tail : Vector Byte 16) (off n i : Nat) :
    (memRead tail off n)[i]? = if i < n then tail[off + i]? else none := by
  simp only [memRead, List.getElem?_take, List.getElem?_drop]
  split <;> simp

theorem memRead_zero (tail : Vector Byte 16) (off : Nat) : memRead tail off 0 = [] := by
  simp [memRead]

/-- The bytes at offsets 0 to `a+m-1` after `m` bytes were written at offset `a`: those before the offset, then those written. -/
theorem memRead_memWrite_append (tail : Vector Byte 16) (a : Nat) (d : List Byte) (h : a + d.length ≤ 16) :
    memRead (memWrite tail a d) 0 (a + d.length) = memRead tail 0 a ++ d := by
  apply List.ext_getElem?
  intro i
  rw [getElem?_memRead, List.getElem?_append, length_memRead _ _ _ (by omega), getElem?_memRead]
  simp only [Nat.zero_add]
  by_cases h1 : i < a
  · rw [if_pos (by omega), if_pos h1, if_pos h1, Vector.getElem?_eq_getElem (by omega),
      Vector.getElem?_eq_getElem (by omega), getElem_memWrite _ _ _ _ (by omega), if_neg (by omega)]
  · rw [if_neg h1]
    by_cases h2 : i < a + d.length
    · rw [if_pos h2, Vector.getElem?_eq_getElem (by omega), getElem_memWrite _ _ _ _ (by omega),
        if_pos (by omega), List.getElem?_eq_getElem (by omega), List.getD_eq_getElem _ _ (by omega)]
    · rw [if_neg h2, List.getElem?_eq_none (by omega)]

/-- The pending bytes of a digest at rest, by their number. -/
theorem length_pending (g : Digest) (h : g.tailLen.toNat ≤ 16) : g.pending.length = g.tailLen.toNat :=
  length_memRead _ _ _ (by omega)

/-- A digest whose `tailLen` is 0 has nothing pending. -/
theorem pending_of_tailLen_zero (g : Digest) (h : g.tailLen.toNat = 0) : g.pending = [] := by
  simp [Digest.pending, h, memRead_zero]

end Sys2Proof.Machine
end

