-- ==== Sys2Proof/Laws/Writer.lean ====
section
/-! SUPPORT. What the writer does, said once: the accumulators, the pending bytes and the length after `writeDigest`. -/

namespace Sys2Proof.Machine

/-- The pieces taken from the front of a sequence do not depend on what follows them. -/
theorem pieces_append (k : Nat) (d e : List Byte) (hk : 16 * k ≤ d.length) :
    pieces k (d ++ e) = pieces k d := by
  induction k generalizing d with
  | zero => simp only [pieces]
  | succ k ih =>
    simp only [pieces]
    rw [List.take_append_of_le_length (by omega), List.drop_append_of_le_length (by omega),
      ih _ (by simp only [List.length_drop]; omega)]

/-- `1 + k` pieces are the first 16 bytes and `k` pieces of the rest. -/
theorem pieces_one_add (k : Nat) (d : List Byte) : pieces (1 + k) d = d.take 16 :: pieces k (d.drop 16) := by
  rw [Nat.add_comm]; simp only [pieces]

/-- A block in front of a sequence is its first block. -/
theorem streamBlocks_block (b d : List Byte) (hb : b.length = 16) : streamBlocks (b ++ d) = b :: streamBlocks d := by
  have hl : (b ++ d).length / 16 = 1 + d.length / 16 := by rw [List.length_append]; omega
  simp only [streamBlocks]
  rw [hl, pieces_one_add, List.take_left' hb, List.drop_left' hb]

/-- A block in front of a sequence leaves what comes after its last block as it was. -/
theorem streamTail_block (b d : List Byte) (hb : b.length = 16) : streamTail (b ++ d) = streamTail d := by
  have hl : 16 * ((b ++ d).length / 16) = 16 + 16 * (d.length / 16) := by rw [List.length_append]; omega
  rw [streamTail, streamTail, hl, ← List.drop_drop, List.drop_left' hb]

@[simp] theorem foldBlocks_nil (h : U64 × U64) : foldBlocks [] h = h := by simp only [foldBlocks, List.foldl_nil]

theorem foldBlocks_cons (b : List Byte) (bs : List (List Byte)) (h : U64 × U64) :
    foldBlocks (b :: bs) h = foldBlocks bs (bm h.1 h.2 b) := by simp only [foldBlocks, List.foldl_cons]

/-- Two new pairs one after the other: the second stands. -/
@[simp] theorem setAcc_setAcc (h k : U64 × U64) (g : Digest) : setAcc h (setAcc k g) = setAcc h g := by simp only [setAcc]

@[simp] theorem setAcc_self (g : Digest) : setAcc (g.h1, g.h2) g = g := by simp only [setAcc]

/-- Step 3 of WRITE mixes the blocks and touches nothing else (40_writer.md R84). -/
theorem mixBlocks_eq (bs : List (List Byte)) (g : Digest) :
    mixBlocks bs g = setAcc (foldBlocks bs (g.h1, g.h2)) g := by
  simp only [mixBlocks]
  induction bs generalizing g with
  | nil => simp only [List.foldl_nil, foldBlocks_nil, setAcc_self]
  | cons b bs ih =>
    rw [List.foldl_cons, ih, foldBlocks_cons]
    simp only [mixDirect, setAcc_h1, setAcc_h2, setAcc_setAcc]

/-- After StoreRemainder the pending bytes are those stored (R85). -/
theorem storeRemainder_pending (r : List Byte) (g : Digest) (h : r.length ≤ 16) :
    (storeRemainder r g).pending = r := by
  have := memRead_memWrite_append g.tail 0 r (by omega)
  simp only [memRead_zero, List.nil_append, Nat.zero_add] at this
  simp only [Digest.pending, storeRemainder_tailLen, storeRemainder_tail, BitVec.toNat_ofNat]
  rw [Nat.mod_eq_of_lt (by omega), this]

/-- After TailAppend the pending bytes are those before and then those appended (R82). -/
theorem tailAppend_pending (d : List Byte) (g : Digest) (h : g.tailLen.toNat + d.length ≤ 16) :
    (tailAppend d g).pending = g.pending ++ d := by
  simp only [Digest.pending, tailAppend_tailLen, tailAppend_tail, BitVec.toNat_ofNat]
  rw [Nat.mod_eq_of_lt (by omega), memRead_memWrite_append _ _ _ h]

/-- A full tail is mixed and emptied (R83). -/
theorem mixTail_full (g : Digest) (h : g.tailLen = 16) :
    mixTail g = .ok (emptyTail (setAcc (bm g.h1 g.h2 g.pending) g)) := by
  simp [mixTail, Digest.pending, h]

/-- A tail that is not full is not mixed (R83, 60_exceptions.md R152). -/
theorem mixTail_not_full (g : Digest) (h : g.tailLen ≠ 16) : mixTail g = .error .blockPrecondition := by
  rw [mixTail, if_pos h]

/-- What a write is to leave: the accumulators have taken every complete block of the pending bytes and the data, and the
rest is pending. -/
structure Wrote (g : Digest) (d : List Byte) (k : Digest) : Prop where
  seed     : k.seed = g.seed
  acc      : (k.h1, k.h2) = foldBlocks (streamBlocks (g.pending ++ d)) (g.h1, g.h2)
  pending  : k.pending = streamTail (g.pending ++ d)
  tailLen  : k.tailLen.toNat = (g.tailLen.toNat + d.length) % 16
  totalLen : k.totalLen = g.totalLen + BitVec.ofNat 64 d.length

/-- Steps 3 and 4 of WRITE, reached with an empty tail (R84, R85). -/
theorem writeDirect_spec (d : List Byte) (g : Digest) :
    (writeDirect d g).seed = g.seed ∧
    ((writeDirect d g).h1, (writeDirect d g).h2) = foldBlocks (streamBlocks d) (g.h1, g.h2) ∧
    (writeDirect d g).pending = streamTail d ∧
    (writeDirect d g).tailLen.toNat = d.length % 16 ∧
    (writeDirect d g).totalLen = g.totalLen := by
  have hr : (d.drop (16 * (d.length / 16))).length = d.length % 16 := by simp; omega
  simp only [writeDirect, Config.blockBytes]
  refine ⟨?_, ?_, ?_, ?_, ?_⟩
  · simp [mixBlocks_eq]
  · simp [mixBlocks_eq, streamBlocks]
  · rw [storeRemainder_pending _ _ (by omega)]; rfl
  · simp only [storeRemainder_tailLen, BitVec.toNat_ofNat, hr]; omega
  · simp [mixBlocks_eq]

/-- Step 1 on a digest at rest, where the data fits the tail (R81). -/
theorem fillTail_spec (d : List Byte) (g : Digest) (hfit : g.tailLen.toNat + d.length ≤ 16) :
    ∃ k, fillTail d g = .ok k ∧ k.seed = g.seed ∧
      (k.h1, k.h2) = foldBlocks (streamBlocks (g.pending ++ d)) (g.h1, g.h2) ∧
      k.pending = streamTail (g.pending ++ d) ∧ k.tailLen.toNat = (g.tailLen.toNat + d.length) % 16 ∧
      k.totalLen = g.totalLen := by
  have hp : g.pending.length = g.tailLen.toNat := length_pending g (by omega)
  have hpend := tailAppend_pending d g hfit
  have hlen : (tailAppend d g).tailLen.toNat = g.tailLen.toNat + d.length := by
    simp only [tailAppend_tailLen, BitVec.toNat_ofNat]; omega
  have hl : (g.pending ++ d).length = g.tailLen.toNat + d.length := by rw [List.length_append, hp]
  by_cases hfull : (tailAppend d g).tailLen = 16
  · have h16 : g.tailLen.toNat + d.length = 16 := by rw [← hlen, hfull]; rfl
    have hb : streamBlocks (g.pending ++ d) = [g.pending ++ d] := by
      simp only [streamBlocks, hl, h16, pieces]
      rw [List.take_of_length_le (by omega)]
    refine ⟨_, by rw [fillTail, if_pos hfull, mixTail_full _ hfull], ?_, ?_, ?_, ?_, ?_⟩
    · simp only [emptyTail_seed, setAcc_seed, tailAppend_seed]
    · rw [hb, hpend, foldBlocks_cons, foldBlocks_nil]
      simp only [emptyTail_h1, emptyTail_h2, setAcc_h1, setAcc_h2, tailAppend_h1, tailAppend_h2]
    · rw [pending_of_tailLen_zero _ (by simp), streamTail, hl, h16, List.drop_eq_nil_of_le (by omega)]
    · simp [h16]
    · simp only [emptyTail_totalLen, setAcc_totalLen, tailAppend_totalLen]
  · have hlt : g.tailLen.toNat + d.length < 16 := by
      rcases Nat.lt_or_ge (g.tailLen.toNat + d.length) 16 with h | h
      · exact h
      · exact absurd (BitVec.eq_of_toNat_eq (by rw [hlen]; simp; omega)) hfull
    have hb : streamBlocks (g.pending ++ d) = [] := by
      simp only [streamBlocks, hl, Nat.div_eq_of_lt hlt, pieces]
    refine ⟨_, by rw [fillTail, if_neg hfull], ?_, ?_, ?_, ?_, ?_⟩
    · simp only [tailAppend_seed]
    · rw [hb, foldBlocks_nil]
      simp only [tailAppend_h1, tailAppend_h2]
    · rw [hpend, streamTail, hl, Nat.div_eq_of_lt hlt, Nat.mul_zero, List.drop_zero]
    · rw [hlen, Nat.mod_eq_of_lt hlt]
    · simp only [tailAppend_totalLen]

/-- Step 2 and the steps after it on a digest at rest, where the data more than fills the tail (R81). -/
theorem overfillTail_spec (free : Nat) (d : List Byte) (g : Digest) (hfree : g.tailLen.toNat + free = 16)
    (hover : free < d.length) :
    ∃ k, overfillTail free d g = .ok k ∧ k.seed = g.seed ∧
      (k.h1, k.h2) = foldBlocks (streamBlocks (g.pending ++ d)) (g.h1, g.h2) ∧
      k.pending = streamTail (g.pending ++ d) ∧ k.tailLen.toNat = (g.tailLen.toNat + d.length) % 16 ∧
      k.totalLen = g.totalLen := by
  have hp : g.pending.length = g.tailLen.toNat := length_pending g (by omega)
  have htake : (d.take free).length = free := by rw [List.length_take]; omega
  have hpend : (tailAppend (d.take free) g).pending = g.pending ++ d.take free :=
    tailAppend_pending _ _ (by omega)
  have hfull : (tailAppend (d.take free) g).tailLen = 16 := by
    apply BitVec.eq_of_toNat_eq
    rw [tailAppend_tailLen, htake, hfree]; rfl
  have hsplit : g.pending ++ d = (g.pending ++ d.take free) ++ d.drop free := by
    rw [List.append_assoc, List.take_append_drop]
  have hblock : (g.pending ++ d.take free).length = 16 := by rw [List.length_append, hp, htake, hfree]
  refine ⟨_, by rw [overfillTail, mixTail_full _ hfull], ?_⟩
  obtain ⟨hs, ha, hq, hn, htl⟩ := writeDirect_spec (d.drop free)
    (emptyTail (setAcc (bm (tailAppend (d.take free) g).h1 (tailAppend (d.take free) g).h2
      (tailAppend (d.take free) g).pending) (tailAppend (d.take free) g)))
  refine ⟨?_, ?_, ?_, ?_, ?_⟩
  · rw [hs]
    simp only [emptyTail_seed, setAcc_seed, tailAppend_seed]
  · rw [ha, hsplit, streamBlocks_block _ _ hblock, foldBlocks_cons, hpend]
    simp only [emptyTail_h1, emptyTail_h2, setAcc_h1, setAcc_h2, tailAppend_h1, tailAppend_h2]
  · rw [hq, hsplit, streamTail_block _ _ hblock]
  · rw [hn, List.length_drop]; omega
  · rw [htl]
    simp only [emptyTail_totalLen, setAcc_totalLen, tailAppend_totalLen]

/-- WRITE on a digest at rest: it never raises, and this is what it leaves (R81 to R88). -/
theorem writeDigest_spec (d : List Byte) (g : Digest) (ht : g.tailLen.toNat ≤ 15) :
    ∃ k, writeDigest d g = .ok k ∧ Wrote g d k := by
  have ht' : (addLength d.length g).tailLen.toNat ≤ 15 := ht
  suffices h : ∃ k, writeDigest d g = .ok k ∧ k.seed = (addLength d.length g).seed ∧
      (k.h1, k.h2) = foldBlocks (streamBlocks ((addLength d.length g).pending ++ d))
        ((addLength d.length g).h1, (addLength d.length g).h2) ∧
      k.pending = streamTail ((addLength d.length g).pending ++ d) ∧
      k.tailLen.toNat = ((addLength d.length g).tailLen.toNat + d.length) % 16 ∧
      k.totalLen = (addLength d.length g).totalLen by
    obtain ⟨k, hk, h1, h2, h3, h4, h5⟩ := h
    exact ⟨k, hk, h1, h2, h3, h4, h5⟩
  rw [writeDigest, writeBytes]
  generalize addLength d.length g = a at ht' ⊢
  by_cases h0 : 0 < a.tailLen.toNat
  · rw [if_pos h0]
    by_cases hfit : d.length ≤ Config.tailCap - a.tailLen.toNat
    · rw [if_pos hfit]
      exact fillTail_spec d a (by simp only [Config.tailCap] at hfit; omega)
    · rw [if_neg hfit]
      simp only [Config.tailCap] at hfit ⊢
      exact overfillTail_spec _ d a (by omega) (by omega)
  · rw [if_neg h0]
    obtain ⟨hs, ha, hq, hn, htl⟩ := writeDirect_spec d a
    have hz : a.tailLen.toNat = 0 := by omega
    have hnil := pending_of_tailLen_zero a hz
    refine ⟨_, rfl, hs, ?_, ?_, ?_, htl⟩
    · rw [hnil, List.nil_append]; exact ha
    · rw [hnil, List.nil_append]; exact hq
    · rw [hn, hz, Nat.zero_add]

end Sys2Proof.Machine
end

