-- ==== Sys2Proof/Laws/Stream.lean ====
section
/-! SUPPORT. Streams as blocks and a tail, and the digest that stands for one (10_state.md R27). -/

namespace Sys2Proof.Machine

/-- Every byte sequence is its complete blocks and then what comes after them. -/
theorem exists_blocks (s : List Byte) :
    ∃ bs : List (List Byte), (∀ b ∈ bs, b.length = 16) ∧ s = bs.flatten ++ streamTail s ∧ streamBlocks s = bs := by
  induction hk : s.length / 16 generalizing s with
  | zero => exact ⟨[], by simp, by simp [streamTail, hk], by simp only [streamBlocks, hk, pieces]⟩
  | succ k ih =>
    have hlen : (s.take 16).length = 16 := by rw [List.length_take]; omega
    obtain ⟨bs, hb, hs, hbl⟩ := ih (s.drop 16) (by rw [List.length_drop]; omega)
    have hsplit : s = s.take 16 ++ s.drop 16 := (List.take_append_drop 16 s).symm
    refine ⟨s.take 16 :: bs, ?_, ?_, ?_⟩
    · intro b hbm
      rcases List.mem_cons.mp hbm with rfl | h
      · exact hlen
      · exact hb b h
    · have ht : streamTail s = streamTail (s.drop 16) := by
        conv => lhs; rw [hsplit]
        exact streamTail_block _ _ hlen
      rw [List.flatten_cons, List.append_assoc, ht, ← hs, ← hsplit]
    · conv => lhs; rw [hsplit]
      rw [streamBlocks_block _ _ hlen, hbl]

/-- Blocks in front of a sequence are its first blocks. -/
theorem streamBlocks_flatten (bs : List (List Byte)) (hb : ∀ b ∈ bs, b.length = 16) (d : List Byte) :
    streamBlocks (bs.flatten ++ d) = bs ++ streamBlocks d := by
  induction bs with
  | nil => rfl
  | cons b bs ih =>
    rw [List.flatten_cons, List.append_assoc, streamBlocks_block _ _ (hb b (by simp)),
      ih fun c hc => hb c (by simp [hc])]
    rfl

/-- Blocks in front of a sequence do not change what comes after its last block. -/
theorem streamTail_flatten (bs : List (List Byte)) (hb : ∀ b ∈ bs, b.length = 16) (d : List Byte) :
    streamTail (bs.flatten ++ d) = streamTail d := by
  induction bs with
  | nil => rfl
  | cons b bs ih =>
    rw [List.flatten_cons, List.append_assoc, streamTail_block _ _ (hb b (by simp)),
      ih fun c hc => hb c (by simp [hc])]

/-- The blocks of a longer stream: those of the shorter, and those of what was pending and the new data. -/
theorem streamBlocks_append (s d : List Byte) :
    streamBlocks (s ++ d) = streamBlocks s ++ streamBlocks (streamTail s ++ d) := by
  obtain ⟨bs, hb, hs, hbl⟩ := exists_blocks s
  have h : s ++ d = bs.flatten ++ (streamTail s ++ d) := by
    conv => lhs; rw [hs]
    rw [List.append_assoc]
  rw [h, streamBlocks_flatten bs hb, hbl]

/-- What is pending of a longer stream, from what was pending of the shorter. -/
theorem streamTail_append (s d : List Byte) : streamTail (s ++ d) = streamTail (streamTail s ++ d) := by
  obtain ⟨bs, hb, hs, -⟩ := exists_blocks s
  have h : s ++ d = bs.flatten ++ (streamTail s ++ d) := by
    conv => lhs; rw [hs]
    rw [List.append_assoc]
  rw [h, streamTail_flatten bs hb]

theorem foldBlocks_append (bs cs : List (List Byte)) (h : U64 × U64) :
    foldBlocks (bs ++ cs) h = foldBlocks cs (foldBlocks bs h) := by simp only [foldBlocks, List.foldl_append]

/-- A digest that stands for a stream is at rest. -/
theorem Digest.Represents.tailLen_le {g : Digest} {s : List Byte} (h : g.Represents s) : g.tailLen.toNat ≤ 15 := by
  have := h.tailLen
  omega

/-- What a write leaves stands for the longer stream. -/
theorem Wrote.represents {g k : Digest} {s d : List Byte} (hw : Wrote g d k) (h : g.Represents s) :
    k.Represents (s ++ d) where
  acc := by
    rw [hw.acc, hw.seed, h.pending, h.acc, streamHash, streamHash, streamBlocks_append s d, foldBlocks_append]
  tailLen := by rw [hw.tailLen, h.tailLen, List.length_append]; omega
  totalLen := by
    rw [hw.totalLen, h.totalLen, List.length_append]
    apply BitVec.eq_of_toNat_eq
    simp
  pending := by rw [hw.pending, h.pending, ← streamTail_append]

/-- A new digest stands for the empty stream. -/
theorem initDigest_represents (seed : BitVec 32) (g : Digest) : (initDigest seed g).Represents [] where
  acc := by simp [streamHash, streamBlocks, pieces]
  tailLen := by simp
  totalLen := by simp
  pending := by rw [pending_of_tailLen_zero _ (by simp)]; simp [streamTail]

/-- Finalization of a digest that stands for a stream is the hash of that stream. -/
theorem Digest.Represents.finalize {g : Digest} {s : List Byte} (h : g.Represents s) :
    Machine.finalize g = murmur3 g.seed s := by
  have hl : (streamTail s).length = g.tailLen.toNat := by
    rw [← h.pending, length_pending g (by have := h.tailLen_le; omega)]
  have ha := h.acc
  simp only [Machine.finalize, murmur3]
  rw [hl, ← ha, ← h.totalLen, ← h.pending, Digest.pending]

end Sys2Proof.Machine
end

