-- ==== Sys2Proof/Laws/Step.lean ====
section
/-! SUPPORT. What executing a command and what a step can do, said once. -/

namespace Sys2Proof.Machine

/-- WRITE on a digest at rest (40_writer.md R81). -/
theorem execWrite_rest (n : BitVec 5) (data : BitVec 128) (s : State) (ht : s.digest.tailLen.toNat ≤ 15) :
    ∃ k, Wrote s.digest (beatBytes n.toNat data) k ∧
      execWrite n data s = .next (respond ackResponse { s with digest := k }) := by
  obtain ⟨k, hk, hw⟩ := writeDigest_spec (beatBytes n.toNat data) s.digest ht
  exact ⟨k, hw, by rw [execWrite, hk]⟩

/-- Everything WRITE can do: an ACK with the written digest, or BLOCK_PRECONDITION. -/
theorem execWrite_cases (n : BitVec 5) (data : BitVec 128) (s : State) :
    (∃ k, writeDigest (beatBytes n.toNat data) s.digest = .ok k ∧
      execWrite n data s = .next (respond ackResponse { s with digest := k })) ∨
    (∃ f, writeDigest (beatBytes n.toNat data) s.digest = .error f ∧
      execWrite n data s = .next (raiseFault f (encode (.write n data)).cmd (loseDigest s))) := by
  rw [execWrite]
  cases h : writeDigest (beatBytes n.toNat data) s.digest with
  | ok k => exact .inl ⟨k, rfl, rfl⟩
  | error f => exact .inr ⟨f, rfl, rfl⟩

/-- Every accepted command gives a next state (70_reset_and_hazards.md R179). -/
theorem exec_answers (i : Instr) (s : State) : ∃ t, exec i s = .next t := by
  cases i with
  | init seed => exact ⟨_, rfl⟩
  | write n data =>
    rcases execWrite_cases n data s with ⟨k, -, h⟩ | ⟨f, -, h⟩
    · exact ⟨_, h⟩
    · exact ⟨_, h⟩
  | sum128 => exact ⟨_, rfl⟩
  | sum => exact ⟨_, rfl⟩
  | size => exact ⟨_, rfl⟩

/-- Everything a step can do, in the order of checks (60_exceptions.md R156). -/
theorem step_cases (s : State) :
    (fetch s = none ∧ step s = .next (betweenRuns s)) ∨
    (∃ c, fetch s = some c ∧
      ((s.faulted = true ∧ step s = .next (refuse s)) ∨
       (s.faulted = false ∧ (∃ e, decode c = .error e) ∧ step s = .next (raiseFault .illegalCommand c.cmd s)) ∨
       (s.faulted = false ∧ ∃ i, decode c = .ok i ∧ step s = exec i s))) := by
  unfold step
  cases hf : fetch s with
  | none => exact .inl ⟨rfl, rfl⟩
  | some c =>
    refine .inr ⟨c, rfl, ?_⟩
    cases hs : s.faulted with
    | true => exact .inl ⟨rfl, by simp⟩
    | false =>
      cases hd : decode c with
      | error e => exact .inr (.inl ⟨rfl, ⟨e, rfl⟩, by simp [hd]⟩)
      | ok i => exact .inr (.inr ⟨rfl, i, rfl, by simp [hd]⟩)

/-- Every step gives a next state. -/
theorem step_answers (s : State) : ∃ t, step s = .next t := by
  rcases step_cases s with ⟨-, h⟩ | ⟨c, -, ⟨-, h⟩ | ⟨-, -, h⟩ | ⟨-, i, -, h⟩⟩
  · exact ⟨_, h⟩
  · exact ⟨_, h⟩
  · exact ⟨_, h⟩
  · rw [h]; exact exec_answers i s

/-- The run of the host's interface is `steps`. -/
theorem core_run_eq_steps (k : Nat) (s : State) : Host.Core.run Sys2Proof.core k s = steps k s := by
  induction k generalizing s with
  | zero => rfl
  | succ k ih =>
    obtain ⟨t, ht⟩ := step_answers s
    have hc : Host.Core.step Sys2Proof.core s = .next t := ht
    simp only [Host.Core.run, steps, hc, ht]
    exact ih t

/-- The placed command is the one at its place. -/
theorem getElem?_placeCommand (k : Nat) (c : Command) (cs : List Command) : (placeCommand k c cs)[k]? = some c := by
  induction k generalizing cs with
  | zero => cases cs <;> simp [placeCommand]
  | succ k ih => cases cs <;> simp [placeCommand, ih]

/-- `withFetchWord` puts the transaction of its bits where the next step takes it. -/
theorem fetch_withFetchWord (s : State) (nbits w : Nat) :
    fetch (s.withFetchWord nbits w) = some (commandOfBits nbits w) :=
  getElem?_placeCommand s.pc _ _

end Sys2Proof.Machine
end

