-- ==== Sys2Proof/Tests/Slice0.lean ====
section
/-! SUPPORT. Tests, their expected values written out from the spec, and a witness for the hypotheses of every statement that
has any. L1 and L2 are the sections of 95_test_vectors.md. Tests that run the mixer are evaluated by the kernel, since `bm` is
irreducible. -/

namespace Sys2Proof.Tests

open Sys2Proof.Machine

/- One thread: with many evaluations side by side, the threads' stacks alone can fill the memory limit. -/
set_option Elab.async false

/-- The state a command leads to. -/
def nextOf (o : Host.Outcome State Fault Refusal) : Option State :=
  match o with
  | .next t => some t
  | .fault _ => none
  | .refused _ => none

/-- A digest with these accumulators and these pending bytes, after `total` bytes. -/
def digestOf (h : U64 × U64) (pend : List Byte) (total : U64) : Digest where
  seed := 0
  h1 := h.1
  h2 := h.2
  tail := Vector.ofFn fun o => pend.getD o.val 0
  tailLen := BitVec.ofNat 5 pend.length
  totalLen := total

/-- A state with a digest and one command to come. -/
def stateOf (g : Digest) (c : Command) : State := { State.reset with digest := g, prog := [c] }

/-- The state `s` with STATUS as after ILLEGAL_COMMAND. -/
def faulted (s : State) : State := { s with status := 3 }

/-- `n` bytes counting up from `a`. -/
def count (a n : Nat) : List Byte := (List.range n).map fun i => BitVec.ofNat 8 (a + i)

/-- The first bytes of "hello", the engine's digest after `INIT`, `WRITE "hello"` (L2-G). -/
def hello : Digest := digestOf (0, 0) [0x68, 0x65, 0x6c, 0x6c, 0x6f] 5

/-! ## Well-formedness -/

theorem test_wf_accepts_16 : (Instr.write 16 0).wf = true := by decide
theorem test_wf_refuses_17 : (Instr.write 17 0).wf = false := by decide
theorem test_wf_refuses_31 : (Instr.write 31 0).wf = false := by decide

/-! ## Decoding: words of R61 and R62, and the verdicts of L2-I -/

theorem test_decode_init : decode ⟨0xffffffff00000001, 0⟩ = .ok (.init 0xffffffff) := by rfl
theorem test_decode_write_0 : decode ⟨0x0000000000000002, 0⟩ = .ok (.write 0 0) := by rfl
theorem test_decode_write_hi : decode ⟨0x0000000000000022, 0x6968⟩ = .ok (.write 2 0x6968) := by rfl
theorem test_decode_write_16 : decode ⟨0x0000000000000102, 0⟩ = .ok (.write 16 0) := by rfl
theorem test_decode_sum128 : decode ⟨0x0000000000000003, 0⟩ = .ok .sum128 := by rfl
theorem test_decode_sum : decode ⟨0x0000000000000004, 0⟩ = .ok .sum := by rfl
theorem test_decode_size : decode ⟨0x0000000000000005, 0⟩ = .ok .size := by rfl
theorem test_decode_zero : decode ⟨0, 0⟩ = .error .reservedOpcode := by rfl
theorem test_decode_op_6 : decode ⟨0x0000000000000006, 0⟩ = .error .reservedOpcode := by rfl
theorem test_decode_op_15 : decode ⟨0x000000000000000f, 0⟩ = .error .reservedOpcode := by rfl
theorem test_decode_init_n_1 : decode ⟨0x0000000000000011, 0⟩ = .error .nonzeroCount := by rfl
theorem test_decode_rsv_9 : decode ⟨0x0000000000000201, 0⟩ = .error .nonzeroReserved := by rfl
theorem test_decode_rsv_31 : decode ⟨0x0000000080000001, 0⟩ = .error .nonzeroReserved := by rfl
theorem test_decode_write_17 : decode ⟨0x0000000000000112, 0⟩ = .error .countTooLarge := by rfl
theorem test_decode_write_31 : decode ⟨0x00000000000001f2, 0⟩ = .error .countTooLarge := by rfl
theorem test_decode_write_imm : decode ⟨0x0000000100000002, 0⟩ = .error .nonzeroImmediate := by rfl
theorem test_decode_sum128_n_1 : decode ⟨0x0000000000000013, 0⟩ = .error .nonzeroCount := by rfl
theorem test_decode_sum128_imm : decode ⟨0x8000000000000003, 0⟩ = .error .nonzeroImmediate := by rfl

/-- The table's numbering: CMD is the low 64 bits, DATA the bits above. -/
theorem test_decode_table_word : decodeTableWord 64 0x22 = some (.write 2 0) ∧ decodeTableWord 32 1 = some (.init 0) ∧
    decodeTableWord 192 0x69680000000000000022 = some (.write 2 0x6968) ∧ decodeTableWord 64 0 = none := by decide

/-- Placed in the reset state, a word is the next command run. -/
theorem test_fetch_word_runs :
    ((nextOf (step (State.reset.withFetchWord 64 0x5))).map fun t => (t.responses, t.pc)) = some ([⟨.value, 16⟩], 1) := by
  decide

/-! ## Primitives and datapaths -/

theorem test_rotl_31 : rotl64 0xffffffff00000000 31 = 0x800000007fffffff := by decide
theorem test_le64 : le64 [0, 1, 2, 3, 4, 5, 6, 7] = 0x0706050403020100 := by decide
theorem test_be_bytes : beBytes64 0xcbd8a7b341bd9b02 = [0xcb, 0xd8, 0xa7, 0xb3, 0x41, 0xbd, 0x9b, 0x02] := by decide
/-- L2-B row 5: wraps. -/
theorem test_bm_ones : bm 0xffffffffffffffff 0xffffffffffffffff (List.replicate 16 0xff)
    = (0x5afdb6c4e814f338, 0x7765cc27813091de) := by decide +kernel
/-- L2-B row 6: `"The quick brown "` under 0x2a. -/
theorem test_bm_text : bm 0x2a 0x2a
    [0x54, 0x68, 0x65, 0x20, 0x71, 0x75, 0x69, 0x63, 0x6b, 0x20, 0x62, 0x72, 0x6f, 0x77, 0x6e, 0x20]
    = (0x065f540b100958de, 0x1185c0360c383b4c) := by decide +kernel
theorem test_fmix64 : fmix64 0x87c37b91114253d5 = 0x9ad795efc9194ea3 := by decide +kernel
/-- L1-2: offset 8 at bits 7:0, offset 14 at bits 55:48. -/
theorem test_tail_placement : xorBytes (List.replicate 8 0 ++ [0xCD, 0, 0, 0, 0, 0, 0xAB]) 8 7 = 0x00AB0000000000CD := by decide
/-- L2-D, `"hello, world"`: both groups, `tailLen` 12. -/
theorem test_finalize_both_groups :
    finalize (digestOf (0, 0) [0x68, 0x65, 0x6c, 0x6c, 0x6f, 0x2c, 0x20, 0x77, 0x6f, 0x72, 0x6c, 0x64] 12)
      = (0x342fac623a5ebc8e, 0x4cdcbc079642414d) := by decide +kernel

/-! ## Commands -/

/-- L2-F: zero-extended, and the old digest gone. -/
theorem test_init_zero_extends :
    ((nextOf (exec (.init 0xffffffff) (stateOf hello ⟨0, 0⟩))).map fun t =>
      (t.digest.seed, t.digest.h1, t.digest.h2, t.digest.tailLen, t.digest.totalLen))
      = some (0xffffffff, 0x00000000ffffffff, 0x00000000ffffffff, 0, 0) := by decide

/-- L2-G W2: an exact fill is dispatched. -/
theorem test_write_exact_fill :
    ((nextOf (exec (.write 11 0x212121212121646c726f7720) (stateOf hello ⟨0, 0⟩))).map fun t =>
      (t.digest.h1, t.digest.h2, t.digest.tailLen, t.digest.totalLen))
      = some (0x07fe3a47736e03c3, 0x14b86c424e5fd842, 0, 16) := by decide +kernel

/-- L2-G W3: one byte completes the tail, fifteen become the new one. -/
theorem test_write_over_full_tail :
    ((nextOf (exec (.write 16 0x1f1e1d1c1b1a19181716151413121110) (stateOf (digestOf (0, 0) (count 1 15) 15) ⟨0, 0⟩))).map
      fun t => (t.digest.h1, t.digest.h2, t.digest.tailLen, t.digest.pending, t.digest.totalLen))
      = some (0x178124fd7f939672, 0x561de10afd457487, 15, count 0x11 15, 31) := by decide +kernel

/-- L2-H. -/
theorem test_sum128_hello :
    ((nextOf (exec .sum128 (stateOf hello ⟨0, 0⟩))).map fun t => t.responses)
      = some [⟨.value, 0x5b1e906a48ae1d19cbd8a7b341bd9b02⟩] := by decide +kernel

/-- L2-H. -/
theorem test_sum_hello :
    ((nextOf (exec .sum (stateOf hello ⟨0, 0⟩))).map fun t => t.responses)
      = some [⟨.value, 0x191dae486a901e5b029bbd41b3a7d8cb⟩] := by decide +kernel

/-- L2-H. -/
theorem test_size : ((nextOf (exec .size (stateOf hello ⟨0, 0⟩))).map fun t => t.responses) = some [⟨.value, 0x10⟩] := by decide

/-! ## Faults and reset (L2-J) -/

theorem test_illegal_word :
    ((nextOf (step (stateOf hello ⟨0x112, 0⟩))).map fun t =>
      (readStatus t, readFcmd t, t.responses, t.digest.tailLen, t.digest.totalLen))
      = some (3, 0x112, [⟨.err, 1⟩], 5, 5) := by decide

theorem test_refused_while_faulted :
    ((nextOf (step (faulted (stateOf hello ⟨0x15, 0⟩)))).map fun t => (readStatus t, readFcmd t, t.responses, t.digest.tailLen))
      = some (3, 0, [⟨.err, 1⟩], 5) := by decide

theorem test_reset_clears_fault :
    ((nextOf (step { faulted State.reset with nextRuns := [[⟨3, 0⟩]] })).map fun t =>
      (readStatus t, t.digest.tailLen, t.prog, t.nextRuns)) = some (0, 0, [⟨3, 0⟩], []) := by decide

/-! ## The assembler (R69, 43_convenience.md) -/

theorem test_assemble_write : assembleText "WRITE 2, 68 69 ; hi" = some [⟨0x22, 0x6968⟩] := by decide
theorem test_assemble_text : assembleText "INIT 0x2a\nWRITE \"hi\"\n.word 0x0"
    = some [⟨0x0000002A00000001, 0⟩, ⟨0x22, 0x6968⟩, ⟨0, 0⟩] := by decide
theorem test_assemble_hash : assembleText "HASH128 \"abcdefghijklmnopq\", 7"
    = some [⟨0x0000000700000001, 0⟩, ⟨0x102, 0x706f6e6d6c6b6a696867666564636261⟩, ⟨0x12, 0x71⟩, ⟨3, 0⟩] := by decide
theorem test_assemble_refuses_count : assembleText "WRITE 3, 68 69" = none := by decide

/-! ## Witnesses of the statements' hypotheses -/

theorem witness_DecodeInvertsEncode : (Instr.write 16 0xff).wf = true := by decide
theorem witness_EncodeInvertsDecode : decode ⟨0x102, 5⟩ = .ok (.write 16 5) := by rfl
theorem witness_OpcodeTableAgreesWithLegality :
    ∃ r ∈ opcodeTable, ∃ q ∈ opcodeTable, r.matchesWord 0x102 = true ∧ q.matchesWord 0x102 = true := by decide
theorem witness_StepRunsDecodedCommand :
    (stateOf hello ⟨0x22, 0x6968⟩).prog[(stateOf hello ⟨0x22, 0x6968⟩).pc]? = some ⟨0x22, 0x6968⟩ ∧
      statusFault (stateOf hello ⟨0x22, 0x6968⟩).status = false ∧ decode ⟨0x22, 0x6968⟩ = .ok (.write 2 0x6968) :=
  ⟨by decide, by decide, by rfl⟩
theorem witness_EveryCommandAnswersOnce :
    (stateOf hello ⟨5, 0⟩).prog[(stateOf hello ⟨5, 0⟩).pc]? = some ⟨5, 0⟩ ∧
      State.reset.prog[State.reset.pc]? = none ∧ State.reset.nextRuns = [] := by decide
/-- A boundary word of each class of R151, and a legal word of each opcode. -/
theorem witness_IllegalCommandRaises :
    (stateOf hello ⟨0, 0⟩).prog[(stateOf hello ⟨0, 0⟩).pc]? = some ⟨0, 0⟩ ∧ statusFault (stateOf hello ⟨0, 0⟩).status = false ∧
      opField 0 = 0 ∧ 6 ≤ (opField 6).toNat ∧ 6 ≤ (opField 0xf).toNat ∧ rsvField 0x201 ≠ 0 ∧ rsvField 0x80000001 ≠ 0 ∧
      (nField 0x13 ≠ 0 ∧ opField 0x13 ≠ 2) ∧ (16 < (nField 0x112).toNat ∧ opField 0x112 = 2) ∧
      (immField 0x100000003 ≠ 0 ∧ opField 0x100000003 ≠ 1) := by decide
theorem witness_IllegalCommandRaises_legal :
    (opField 0x102 ≠ 0 ∧ ¬ 6 ≤ (opField 0x102).toNat ∧ rsvField 0x102 = 0 ∧ opField 0x102 = 2 ∧ ¬ 16 < (nField 0x102).toNat ∧
      immField 0x102 = 0) ∧
    (opField 5 ≠ 0 ∧ ¬ 6 ≤ (opField 5).toNat ∧ rsvField 5 = 0 ∧ nField 5 = 0 ∧ opField 5 ≠ 2 ∧ immField 5 = 0) := by decide
theorem witness_FaultStateRefusesEveryCommand :
    statusFault (faulted (stateOf hello ⟨1, 0⟩)).status = true ∧
      (faulted (stateOf hello ⟨1, 0⟩)).pc + 1 ≤ (faulted (stateOf hello ⟨1, 0⟩)).prog.length := by decide
theorem witness_OnlyResetLeavesFaultState :
    statusFault (faulted State.reset).status = true ∧
      ∃ t, step { faulted State.reset with nextRuns := [[]] } = .next t ∧ statusFault t.status = false :=
  ⟨by decide, _, rfl, by decide⟩
theorem witness_OnlyResetLeavesFaultState_refused :
    statusFault (faulted (stateOf hello ⟨1, 0⟩)).status = true ∧
      (faulted (stateOf hello ⟨1, 0⟩)).prog[(faulted (stateOf hello ⟨1, 0⟩)).pc]? = some ⟨1, 0⟩ := by decide
/-- Each legal STATUS, and a step that raises a fault. -/
theorem witness_StatusReadsAndWriters :
    State.reset.statusLegal ∧ (faulted State.reset).statusLegal ∧ State.statusLegal { State.reset with status := 5 } ∧
      ∃ t, step (stateOf hello ⟨0, 0⟩) = .next t :=
  ⟨.inl rfl, .inr (.inl rfl), .inr (.inr rfl), _, rfl⟩
theorem witness_FcmdHoldsFaultedCommand : ∃ t, step (stateOf hello ⟨0x112, 0⟩) = .next t ∧ t.fcmd = 0x112 := ⟨_, rfl, rfl⟩
theorem witness_InitStartsDigest :
    (opField 0xffffffff00000001 = 1 ∧ nField 0xffffffff00000001 = 0 ∧ rsvField 0xffffffff00000001 = 0) ∧
      (opField 0x11 = 1 ∧ nField 0x11 ≠ 0) ∧ (opField 0x201 = 1 ∧ rsvField 0x201 ≠ 0) ∧
      statusFault (faulted (stateOf hello ⟨1, 0⟩)).status = true ∧
      (faulted (stateOf hello ⟨1, 0⟩)).prog[(faulted (stateOf hello ⟨1, 0⟩)).pc]? = some ⟨1, 0⟩ ∧ opField 1 = 1 := by decide
/-- Both sides of the check. -/
theorem witness_MixTailChecksFullTail :
    (digestOf (0, 0) (count 0 16) 16).tailLen.toNat = 16 ∧ (digestOf (0, 0) (count 0 15) 15).tailLen.toNat ≠ 16 := by decide
theorem witness_TailReadsBackWhatWasWritten :
    13 + (count 1 3).length ≤ 16 ∧ 0 + (count 1 16).length ≤ 16 ∧ 16 + ([] : List Byte).length ≤ 16 ∧
      (12 < 13 ∨ 13 + (count 1 3).length ≤ 12) ∧ 13 + 3 ≤ 16 := by decide
/-- The last sum that completes no block, the first that does, the largest, and no bytes at all. -/
theorem witness_WriteAppendsItsBytes :
    hello.tailLen.toNat ≤ 15 ∧ (10 : BitVec 5).toNat ≤ 16 ∧ hello.tailLen.toNat + (10 : BitVec 5).toNat < 16 ∧
      (11 : BitVec 5).toNat ≤ 16 ∧ 16 ≤ hello.tailLen.toNat + (11 : BitVec 5).toNat ∧
      (digestOf (0, 0) (count 1 15) 15).tailLen.toNat ≤ 15 ∧ (16 : BitVec 5).toNat ≤ 16 ∧
      16 ≤ (digestOf (0, 0) (count 1 15) 15).tailLen.toNat + (16 : BitVec 5).toNat ∧ (0 : BitVec 5).toNat ≤ 16 := by decide
/-- A tail that is overfilled, with bytes in both places and one between them (offset 15 is used; `tailLen` 15, N = 15). -/
theorem witness_WriteStoresOnlyItsBytes :
    (∃ t, exec (.write 15 0) (stateOf (digestOf (0, 0) (count 1 15) 15) ⟨0, 0⟩) = .next t) ∧
      0 < (digestOf (0, 0) (count 1 15) 15).tailLen.toNat ∧ (15 : BitVec 5).toNat ≤ 16 ∧
      (1 : Nat) = (if 0 < (digestOf (0, 0) (count 1 15) 15).tailLen.toNat
        then min (15 : BitVec 5).toNat (16 - (digestOf (0, 0) (count 1 15) 15).tailLen.toNat)
        else 16 * ((15 : BitVec 5).toNat / 16)) ∧
      (0 < 1 ∧ 13 < (15 : BitVec 5).toNat - 1) ∧ (15 : BitVec 5).toNat - 1 ≤ 14 ∧ ¬ (15 ≤ 14 ∧ 14 < 15 + 1) :=
  ⟨⟨_, rfl⟩, by decide, by decide, by decide, by decide, by decide, by decide⟩
theorem witness_UnusedLanesAreIgnored :
    (∀ i, i < 2 → (0x6968 : BitVec 128).extractLsb' (8 * i) 8 = (0xAA6968 : BitVec 128).extractLsb' (8 * i) 8) ∧
      opField 3 ≠ 2 := by decide
theorem witness_BlockPreconditionRaises :
    16 < (digestOf (0, 0) (count 0 17) 17).tailLen.toNat ∧ 0 < (1 : BitVec 5).toNat ∧ (1 : BitVec 5).toNat ≤ 16 := by decide
theorem witness_BlockPreconditionUnreachable :
    (stateOf hello ⟨5, 0⟩).digest.tailLen.toNat ≤ 15 ∧ statusCause (stateOf hello ⟨5, 0⟩).status ≠ 2 ∧
      ∃ t, steps 1 (stateOf hello ⟨5, 0⟩) = .next t :=
  ⟨by decide, by decide, _, rfl⟩
theorem witness_SeedAndAccumulatorWriters :
    (stateOf hello ⟨0x0000000700000001, 0⟩).digest.tailLen.toNat ≤ 15 ∧
      ∃ t, step (stateOf hello ⟨0x0000000700000001, 0⟩) = .next t ∧ t.digest.seed ≠ (stateOf hello ⟨0x0000000700000001, 0⟩).digest.seed :=
  ⟨by decide, _, rfl, by decide⟩
theorem witness_Sum128ReturnsHash :
    opField 0x13 = 3 ∧ (0x13 : BitVec 64) ≠ 0x0000000000000003 ∧ hello.Represents [0x68, 0x65, 0x6c, 0x6c, 0x6f] :=
  ⟨by decide, by decide, by decide, by decide, by decide, by decide⟩
theorem witness_SumReturnsBigEndianBytes : opField 0x14 = 4 ∧ (0x14 : BitVec 64) ≠ 0x0000000000000004 := by decide
theorem witness_SizeReturnsSixteen : opField 0x15 = 5 ∧ (0x15 : BitVec 64) ≠ 0x0000000000000005 := by decide
theorem witness_ReadsMayStandAnywhere :
    (∀ i ∈ [Instr.sum128, .sum, .size], isRead i = true) ∧ ∃ u, execList [.write 1 7, .sum128] (stateOf hello ⟨0, 0⟩) = .next u :=
  ⟨by decide, _, rfl⟩
theorem witness_ByteOrdersAreOpposite : (count 0 8).length = 8 := by decide
theorem witness_TailWordsAreLittleEndian : (count 0 15).length ≤ 15 ∧ (count 0 8).length ≤ 15 := by decide
/-- With the words of an all-zero block. -/
theorem witness_BlockMixerTransform :
    (List.replicate 16 (0 : Byte)).length = 16 ∧
      (0 : U64) = ((le64 ((List.replicate 16 0).take 8) * 0x87c37b91114253d5).rotateLeft 31) * 0x4cf5ad432745937f ∧
      (0 : U64) = ((le64 ((List.replicate 16 0).drop 8) * 0x4cf5ad432745937f).rotateLeft 33) * 0x87c37b91114253d5 ∧
      (0x52dce729 : U64) = ((0 ^^^ 0 : U64).rotateLeft 27 + 0) * 5 + 0x52dce729 ∧
      (0x1d699de82 : U64) = ((0 ^^^ 0 : U64).rotateLeft 31 + 0x52dce729) * 5 + 0x38495ab5 := by decide
theorem witness_FinalizerSteps :
    (0xff51afd7ed558ccd : U64) = (1 ^^^ (1 >>> 33)) * 0xff51afd7ed558ccd ∧
      ∃ y : U64, y = (0xff51afd7ed558ccd ^^^ (0xff51afd7ed558ccd >>> 33)) * 0xc4ceb9fe1a85ec53 := ⟨by decide, _, rfl⟩
/-- The three amounts, and the first and the last bit. -/
theorem witness_RotationsAreBijections :
    ((27 : Nat) = 27 ∧ (31 : Nat) = 31 ∧ (33 : Nat) = 33) ∧ 0 < 64 ∧ 63 < 64 ∧
      rotl64 1 27 = 0x8000000 ∧ rotl64 0x8000000000000000 33 = 0x100000000 := by decide
theorem witness_FaultEntryRecords : 4 ≤ 4 ∧ 4 ≤ 31 := by decide
/-- Each group's boundary. -/
theorem witness_TailGroupsFoldedWhenPresent :
    (count 0 0).length = 0 ∧ 1 ≤ (count 0 1).length ∧ (count 0 8).length ≤ 8 ∧ 9 ≤ (count 0 9).length ∧
      (count 0 15).length ≤ 15 := by decide
theorem witness_FinalizationSteps :
    ∃ a b, tailWords hello.h1 hello.h2 hello.pending hello.tailLen.toNat = (a, b) := ⟨_, _, rfl⟩
theorem witness_DigestFollowsStream :
    (Instr.write 1 0x77).wf = true ∧ (stateOf hello ⟨0, 0⟩).digest.Represents [0x68, 0x65, 0x6c, 0x6c, 0x6f] :=
  ⟨by decide, by decide, by decide, by decide, by decide⟩
theorem witness_ChunkingDoesNotMatter :
    (∀ i ∈ [Instr.write 2 0x6968], isWrite i = true) ∧ (∀ i ∈ [Instr.write 1 0x68, .write 0 5, .write 1 0x69], isWrite i = true) ∧
      (stateOf (digestOf (0, 0) (count 1 15) 15) ⟨0, 0⟩).digest.tailLen.toNat ≤ 15 ∧
      writtenBytes [.write 2 0x6968] = writtenBytes [.write 1 0x68, .write 0 5, .write 1 0x69] := by decide
theorem witness_EngineComputesMurmur3 : ∀ i ∈ [Instr.write 16 0x77, .write 1 0x68], isWrite i = true := by decide
theorem witness_StaleBytesAreNeverRead :
    (Instr.write 16 0).wf = true ∧ hello.tailLen.toNat ≤ 15 ∧
      hello.Same { hello with tail := hello.tail.set 5 0xff } :=
  ⟨by decide, by decide, by decide, by decide, by decide, by decide, by decide, by decide⟩
theorem witness_ForksAreIndependent :
    (∀ i ∈ [Instr.write 2 0x6968], isWrite i = true) ∧ ∃ a, execList [.init 7, .write 2 0x6968] State.reset = .next a :=
  ⟨by decide, _, rfl⟩
theorem witness_WriteStrSplitsData : (count 0 17) ≠ [] ∧ 1 < ((count 0 17).length + 15) / 16 := by decide
theorem witness_HashProgramReturnsHash :
    statusFault (State.reset.load ((hash128Instrs (count 0 17) 7).map encode)).status = false ∧
      (State.reset.load ((hash128Instrs (count 0 17) 7).map encode)).pc = 0 ∧
      assembleLine (.hash128 (count 0 17) (some 7)) = some (State.reset.load ((hash128Instrs (count 0 17) 7).map encode)).prog :=
  ⟨by decide, by decide, by decide⟩
theorem witness_ResetTakenBetweenRuns :
    ({ State.reset with nextRuns := [[⟨3, 0⟩]] } : State).prog[({ State.reset with nextRuns := [[⟨3, 0⟩]] } : State).pc]? = none ∧
      ({ State.reset with nextRuns := [[⟨3, 0⟩]] } : State).nextRuns = [⟨3, 0⟩] :: [] := by decide
theorem witness_EveryStepKeepsInvariant :
    (stateOf hello ⟨0x102, 5⟩).Inv ∧ ∃ t, step (stateOf hello ⟨0x102, 5⟩) = .next t :=
  ⟨⟨by decide, by decide, .inl rfl, fun _ => rfl, by decide, by decide⟩, _, rfl⟩

end Sys2Proof.Tests
end

/-! The status registers and the reset state (10_state.md): what a read of STATUS shows, who writes STATUS and FCMD, and the
statements about them. -/

namespace Sys2Proof

/-- The word of a decoded command is the word it was decoded from (30_encoding.md R63, R68). -/
theorem encode_cmd_of_decode_ok {c : Machine.Command} {i : Instr} (h : decode c = .ok i) : (encode i).cmd = c.cmd := by
  unfold decode at h
  split at h
  · cases h
  next hrsv =>
    rw [← commandWord_fields c.cmd (not_not.mp hrsv)]
    split at h
    next hop =>
      split at h
      · cases h
      next hn => cases h; rw [hop, not_not.mp hn, encode]
    split at h
    next hop =>
      split at h
      · cases h
      split at h
      · cases h
      next himm => cases h; rw [hop, not_not.mp himm, encode]
    split at h
    next hop => obtain ⟨hn, himm, rfl⟩ := (bareCommand_eq_ok ..).mp h; rw [hop, hn, himm, encode]
    split at h
    next hop => obtain ⟨hn, himm, rfl⟩ := (bareCommand_eq_ok ..).mp h; rw [hop, hn, himm, encode]
    split at h
    next hop => obtain ⟨hn, himm, rfl⟩ := (bareCommand_eq_ok ..).mp h; rw [hop, hn, himm, encode]
    · cases h

end Sys2Proof

namespace Sys2Proof.Machine

/-- A read of STATUS shows bits 3:0, and 0 above them (R30). -/
theorem getLsbD_readStatus (s : State) (b : Nat) :
    (readStatus s).getLsbD b = (s.status.getLsbD b && decide (b < 4)) := by
  have hmask : (0xF#32).getLsbD b = decide (b < 4) := by
    rw [BitVec.getLsbD_ofNat, show (0xF : Nat) = 2 ^ 4 - 1 by rfl, Nat.testBit_two_pow_sub_one]
    by_cases hb : b < 4
    · simp [hb]; omega
    · simp [hb]
  rw [readStatus, BitVec.getLsbD_and]
  exact congrArg _ hmask

/-- Fault entry sets `STATUS.FAULT` (60_exceptions.md R153). -/
@[simp] theorem statusFault_statusWithFault (f : FaultCause) (st : BitVec 32) :
    statusFault (statusWithFault f st) = true := by
  simp [statusFault, statusWithFault]

/-- Fault entry from a legal STATUS without a fault gives a legal STATUS. -/
theorem statusWithFault_legal (f : FaultCause) (s : State) (hs : s.statusLegal) (hf : s.faulted = false) :
    statusWithFault f s.status = 3 ∨ statusWithFault f s.status = 5 := by
  have h0 : s.status = 0 := by
    rcases hs with h | h | h
    · exact h
    all_goals rw [State.faulted, h] at hf; exact absurd hf (by decide)
  rw [h0]
  cases f with
  | illegalCommand => exact .inl (by decide)
  | blockPrecondition => exact .inr (by decide)

/-- An executed command keeps the status registers, or enters a fault with its own word. -/
theorem exec_status_cases {i : Instr} {s t : State} (h : exec i s = .next t) :
    StatusKept s t ∨ ∃ f, t.status = statusWithFault f s.status ∧ t.fcmd = (encode i).cmd := by
  cases i with
  | write n data =>
    change execWrite n data s = .next t at h
    rcases execWrite_cases n data s with ⟨k, -, hk⟩ | ⟨f, -, hf⟩
    · rw [hk] at h; cases h; exact .inl ⟨rfl, rfl, rfl⟩
    · rw [hf] at h; cases h; exact .inr ⟨f, rfl, rfl⟩
  | init seed => cases h; exact .inl ⟨rfl, rfl, rfl⟩
  | sum128 => cases h; exact .inl ⟨rfl, rfl, rfl⟩
  | sum => cases h; exact .inl ⟨rfl, rfl, rfl⟩
  | size => cases h; exact .inl ⟨rfl, rfl, rfl⟩

/-- Between runs the status registers are kept or cleared. -/
theorem betweenRuns_status_cases (s : State) :
    StatusKept s (betweenRuns s) ∨ ((betweenRuns s).status = 0 ∧ (betweenRuns s).fcmd = 0) := by
  unfold betweenRuns
  split
  · exact .inl ⟨rfl, rfl, rfl⟩
  · exact .inr ⟨rfl, rfl⟩

/-- Who writes STATUS and FCMD: a step keeps both, or enters a fault from `FAULT = 0` with the word of the command it accepted,
or is a reset (R30, R31). -/
theorem step_status_cases {s t : State} (h : step s = .next t) :
    StatusKept s t ∨
    (s.faulted = false ∧ ∃ f c, fetch s = some c ∧ t.status = statusWithFault f s.status ∧ t.fcmd = c.cmd) ∨
    (fetch s = none ∧ t.status = 0 ∧ t.fcmd = 0) := by
  rcases step_cases s with ⟨hfetch, hstep⟩ | ⟨c, hfetch, ⟨-, hstep⟩ | ⟨hok, -, hstep⟩ | ⟨hok, i, hi, hstep⟩⟩ <;>
    rw [hstep] at h
  · cases h
    rcases betweenRuns_status_cases s with hkept | hreset
    · exact .inl hkept
    · exact .inr (.inr ⟨hfetch, hreset⟩)
  · cases h; exact .inl ⟨rfl, rfl, rfl⟩
  · cases h; exact .inr (.inl ⟨hok, _, c, hfetch, rfl, rfl⟩)
  · rcases exec_status_cases h with hkept | ⟨f, hst, hfc⟩
    · exact .inl hkept
    · exact .inr (.inl ⟨hok, f, c, hfetch, hst, hfc.trans (encode_cmd_of_decode_ok hi)⟩)

/-- Every step keeps STATUS legal (R30). -/
theorem step_statusLegal {s t : State} (hs : s.statusLegal) (h : step s = .next t) : t.statusLegal := by
  rcases step_status_cases h with hkept | ⟨hok, f, c, -, hst, -⟩ | ⟨-, hst, -⟩
  · rw [State.statusLegal, hkept.status]; exact hs
  · rw [State.statusLegal, hst]; exact .inr (statusWithFault_legal f s hs hok)
  · exact .inl hst

/-- A legal CAUSE is 0, 1 or 2, and 0 exactly without a fault (R30). -/
theorem statusCause_of_statusLegal {s : State} (hs : s.statusLegal) :
    (statusCause s.status = 0 ∨ statusCause s.status = 1 ∨ statusCause s.status = 2) ∧
      (statusCause s.status = 0 ↔ statusFault s.status = false) := by
  rcases hs with h | h | h
  all_goals rw [h]; decide

/-- What the host reads of STATUS and of FAULT_OUT is its fields, and zeros in bits 31:4 (R30; 60_exceptions.md R159). -/
theorem readStatus_fields (s : State) :
    (readStatus s).getLsbD 0 = statusFault s.status ∧ (readStatus s).extractLsb' 1 3 = statusCause s.status ∧
      (∀ b, 4 ≤ b → (readStatus s).getLsbD b = false) ∧ faultOut s = (readStatus s).getLsbD 0 := by
  have hfault : (readStatus s).getLsbD 0 = statusFault s.status := by
    rw [getLsbD_readStatus, statusFault]; simp
  refine ⟨hfault, ?_, fun b hb => ?_, hfault.symm⟩
  · apply BitVec.eq_of_getLsbD_eq
    intro j hj
    simp [statusCause, getLsbD_readStatus, show 1 + j < 4 by omega]
  · simp [getLsbD_readStatus, show ¬ b < 4 by omega]

/-- Settles O12: the reads field by field, and the rest from who writes STATUS in a step. -/
theorem statusReadsAndWriters : Obligations.StatusReadsAndWriters := by
  refine ⟨readStatus_fields, rfl, fun s t hs h => step_statusLegal hs h, fun s hs => statusCause_of_statusLegal hs,
    fun s t h => ?_⟩
  rcases step_status_cases h with hkept | ⟨hok, f, c, hfetch, hst, -⟩ | ⟨hnone, hst, -⟩
  · exact .inl hkept.status
  · exact .inr (.inl ⟨hok, f, c, hfetch, hst⟩)
  · exact .inr (.inr ⟨hnone, hst⟩)

/-- Settles O13, from who writes FCMD in a step. -/
theorem fcmdHoldsFaultedCommand : Obligations.FcmdHoldsFaultedCommand := by
  refine ⟨rfl, fun _ => rfl, fun s t h => ?_⟩
  rcases step_status_cases h with hkept | ⟨hok, f, c, hfetch, hst, hfc⟩ | ⟨hnone, hst, hfc⟩
  · exact .inl ⟨hkept.fcmd, by rw [hkept.status]⟩
  · exact .inr (.inl ⟨hok, by rw [hst, statusFault_statusWithFault], c, hfetch, hfc⟩)
  · exact .inr (.inr ⟨hnone, hfc, hst⟩)

/-- INIT with seed 0 gives the digest of reset, but for stale bytes (R35). -/
theorem initDigest_zero_same_reset (g : Digest) (k : Nat) : (initDigest 0 g).Same (Digest.reset k) where
  seed := by simp
  h1 := by simp [zext64]
  h2 := by simp [zext64]
  tailLen := by simp
  totalLen := by simp
  pending := by rw [pending_of_tailLen_zero _ (by simp), pending_of_tailLen_zero _ (by simp)]

/-- Settles O44: the values of reset by definition, and INIT with seed 0 field by field. -/
theorem resetStateValues : Obligations.ResetStateValues :=
  ⟨reset_seed 0, reset_h1 0, reset_h2 0, reset_tailLen 0, reset_totalLen 0, rfl, rfl, rfl,
    fun g => initDigest_zero_same_reset g 0⟩

end Sys2Proof.Machine

/-! The data beat (30_encoding.md R65): which of its lanes a WRITE reads, and that no other command reads any. -/

namespace Sys2Proof

/-- A word whose opcode is not WRITE's decodes from CMD alone. -/
theorem decode_eq_of_opField_ne_write {cmd : BitVec 64} (d e : BitVec 128) (hop : opField cmd ≠ 2) :
    decode ⟨cmd, d⟩ = decode ⟨cmd, e⟩ := by
  simp only [decode, if_neg hop]

end Sys2Proof

namespace Sys2Proof.Machine

/-- Byte `i` of a WRITE's data is lane `i` of its beat. -/
theorem getElem?_beatBytes_of_lt {n i : Nat} (data : BitVec 128) (hi : i < n) :
    (beatBytes n data)[i]? = some (lane data i) := by
  rw [getElem?_beatBytes, if_pos hi]

/-- The data of a WRITE is a function of the first `n` lanes of its beat. -/
theorem beatBytes_congr {n : Nat} {d e : BitVec 128} (h : ∀ i, i < n → lane d i = lane e i) :
    beatBytes n d = beatBytes n e :=
  List.map_congr_left fun i hi => h i (List.mem_range.mp hi)

/-- WRITE reads its beat only through its data bytes: the word that a fault keeps holds no bit of the beat (R31, R61). -/
theorem execWrite_eq_of_beatBytes_eq {n : BitVec 5} {d e : BitVec 128} (s : State)
    (h : beatBytes n.toNat d = beatBytes n.toNat e) : execWrite n d s = execWrite n e s := by
  have hword : (encode (.write n d)).cmd = (encode (.write n e)).cmd := by simp only [encode]
  rw [execWrite, execWrite, h, hword]

/-- Lane 0 of a beat that holds one byte is that byte. -/
theorem lane_zero_of_byte (b : Byte) : lane (b.zeroExtend 128) 0 = b := by
  apply BitVec.eq_of_getLsbD_eq
  intro i hi
  simp [lane, hi, show i < 128 by omega]

/-- The WRITE of a single byte, in lane 0. -/
def writeByte (b : Byte) : Instr := .write 1 (b.zeroExtend 128)

@[simp] theorem isWrite_writeByte (b : Byte) : isWrite (writeByte b) = true := by
  simp [writeByte, isWrite]

@[simp] theorem dataBytes_writeByte (b : Byte) : dataBytes (writeByte b) = [b] :=
  congrArg (fun c => [c]) (lane_zero_of_byte b)

/-- The WRITEs of the bytes of `data`, one after another, carry `data`. -/
theorem writtenBytes_map_writeByte (data : List Byte) : writtenBytes (data.map writeByte) = data := by
  simp [writtenBytes, List.flatMap_map]

/-- Settles O19: the data is the first lanes of the beat, WRITE reads no more than its data, decoding reads the beat only for a
WRITE, and data of any length is written byte by byte. -/
theorem unusedLanesAreIgnored : Obligations.UnusedLanesAreIgnored := by
  refine ⟨fun n data => ⟨length_beatBytes n data, fun i hi => getElem?_beatBytes_of_lt data hi⟩, ?_, ?_, ?_⟩
  · intro n d e s _ hlanes
    exact execWrite_eq_of_beatBytes_eq s (beatBytes_congr hlanes)
  · exact fun cmd d e hop => decode_eq_of_opField_ne_write d e hop
  · intro data
    refine ⟨data.map writeByte, fun i hi => ?_, writtenBytes_map_writeByte data⟩
    obtain ⟨b, -, rfl⟩ := List.mem_map.mp hi
    exact isWrite_writeByte b

end Sys2Proof.Machine

/-! INIT (40_writer.md R80): its words, its state after, and that a faulted engine refuses it; and the check of MixTail (R83). -/

namespace Sys2Proof

/-- A word with INIT's opcode, N and RSV 0 is the INIT of its IMM field. -/
theorem decode_init {c : Machine.Command} (hop : opField c.cmd = 1) (hn : nField c.cmd = 0) (hrsv : rsvField c.cmd = 0) :
    decode c = .ok (.init (immField c.cmd)) := by
  rw [decode, if_neg (not_not.mpr hrsv), if_pos hop, if_neg (not_not.mpr hn)]

/-- A word with INIT's opcode and a bit of N or RSV set does not decode (30_encoding.md R67). -/
theorem decode_init_error {c : Machine.Command} (hop : opField c.cmd = 1) (hbad : nField c.cmd ≠ 0 ∨ rsvField c.cmd ≠ 0) :
    ∃ e, decode c = .error e := by
  by_cases hrsv : rsvField c.cmd = 0
  · have hn : nField c.cmd ≠ 0 := hbad.resolve_right (not_not.mpr hrsv)
    exact ⟨.nonzeroCount, by rw [decode, if_neg (not_not.mpr hrsv), if_pos hop, if_pos hn]⟩
  · exact ⟨.nonzeroReserved, by rw [decode, if_pos hrsv]⟩

end Sys2Proof

namespace Sys2Proof.Machine

/-- In the fault state a waiting command is refused, whatever its word (60_exceptions.md R155). -/
theorem step_of_faulted {s : State} {c : Command} (hf : s.faulted = true) (hc : fetch s = some c) :
    step s = .next (refuse s) := by
  simp [step, hc, hf]

/-- The state after INIT. -/
theorem exec_init (seed : BitVec 32) (s : State) :
    exec (.init seed) s = .next (respond ackResponse { s with digest := initDigest seed s.digest }) := rfl

/-- Widening does not change a value's number (00_scope.md R11). -/
theorem toNat_zext64 {w : Nat} (v : BitVec w) (hw : w ≤ 64) : (zext64 v).toNat = v.toNat :=
  BitVec.toNat_setWidth_of_le hw

/-- The two ways the model says that a tail is full. -/
theorem tailLen_eq_sixteen_iff (g : Digest) : g.tailLen = 16 ↔ g.tailLen.toNat = 16 :=
  BitVec.toNat_inj.symm

/-- Settles O14: the digest after INIT field by field, the words of its opcode, and its refusal in the fault state. -/
theorem initStartsDigest : Obligations.InitStartsDigest := by
  refine ⟨fun seed s => ⟨_, exec_init seed s, ⟨rfl, rfl, rfl, rfl⟩, ⟨rfl, rfl, rfl⟩, ?_⟩,
    fun c hop hn hrsv => decode_init hop hn hrsv, fun c hop hbad => decode_init_error hop hbad,
    fun s c hf hc _ => ⟨_, step_of_faulted hf hc, refuse_status s, refuse_digest s⟩⟩
  rw [respond_digest]
  refine ⟨initDigest_seed .., ?_, ?_, initDigest_tailLen .., initDigest_totalLen .., fun o => ?_, ?_⟩
  · rw [initDigest_h1, toNat_zext64 seed (by omega)]
  · rw [initDigest_h2, toNat_zext64 seed (by omega)]
  · rw [tailByte, tailByte, initDigest_tail]
  · rintro rfl k
    exact initDigest_zero_same_reset s.digest k

/-- Settles O15: a tail that is not full fails the check, and a full one is mixed and emptied. -/
theorem mixTailChecksFullTail : Obligations.MixTailChecksFullTail := by
  refine fun g => ⟨fun hlen => ?_, fun hlen => ?_⟩
  · exact mixTail_not_full g (mt (tailLen_eq_sixteen_iff g).mp hlen)
  · refine ⟨_, mixTail_full g ((tailLen_eq_sixteen_iff g).mpr hlen), emptyTail_tailLen _, ?_, ?_, ?_, ?_⟩
    · rw [emptyTail_h1, emptyTail_h2, setAcc_h1, setAcc_h2, Digest.pending, hlen]
    · rw [emptyTail_seed, setAcc_seed]
    · rw [emptyTail_tail, setAcc_tail]
    · rw [emptyTail_totalLen, setAcc_totalLen]

end Sys2Proof.Machine

/-! The block mixer (41_block_mixer.md R101), word by word. `bm` is opened by `unfold`: making its equation for `rw` or `simp` runs
into the recursion limit. -/

namespace Sys2Proof.Machine

/-- The rotation of R11 is the library's for every amount below the width (41_block_mixer.md R103). -/
theorem rotl64_eq_rotateLeft (a : U64) {r : Nat} (hr : r < 64) : rotl64 a r = a.rotateLeft r := by
  rw [BitVec.rotateLeft_def, Nat.mod_eq_of_lt hr, rotl64]

/-- The `k1` word of R101, with the library's rotation. -/
theorem mixK1_eq (k : U64) : mixK1 k = (k * c1).rotateLeft 31 * c2 := by
  rw [mixK1, rotl64_eq_rotateLeft _ (by decide)]

/-- The `k2` word of R101, with the library's rotation. -/
theorem mixK2_eq (k : U64) : mixK2 k = (k * c2).rotateLeft 33 * c1 := by
  rw [mixK2, rotl64_eq_rotateLeft _ (by decide)]

/-- The new `h1` of R101. -/
theorem bm_fst (h1 h2 : U64) (b : List Byte) :
    (bm h1 h2 b).1 = ((h1 ^^^ mixK1 (le64 (b.take 8))).rotateLeft 27 + h2) * 5 + a1 := by
  rw [← rotl64_eq_rotateLeft _ (by decide)]
  unfold bm
  rfl

/-- The new `h2` of R101, which adds the new `h1` (R104). -/
theorem bm_snd (h1 h2 : U64) (b : List Byte) :
    (bm h1 h2 b).2 = ((h2 ^^^ mixK2 (le64 (b.drop 8))).rotateLeft 31 + (bm h1 h2 b).1) * 5 + a2 := by
  rw [← rotl64_eq_rotateLeft _ (by decide)]
  unfold bm
  rfl

/-- Settles O31: the transform word by word, and its values by running it. -/
theorem blockMixerTransform : Obligations.BlockMixerTransform := by
  refine ⟨?_, by unfold bm; decide, by decide, by unfold bm; decide⟩
  rintro h1 h2 b - k1 k2 g1 g2 hk1 hk2 hg1 hg2
  have hfst : (bm h1 h2 b).1 = g1 := by rw [bm_fst, mixK1_eq, hg1, hk1, c1, c2, a1]
  have hsnd : (bm h1 h2 b).2 = g2 := by rw [bm_snd, hfst, mixK2_eq, hg2, hk2, c1, c2, a2]
  exact Prod.ext hfst hsnd

end Sys2Proof.Machine

/-! Finalization (42_finalization.md): the finalizer's steps (R120), SIZE and the words of the commands without operands (R125), and
that SUM128, SUM and SIZE may stand anywhere among other commands (R126). -/

namespace Sys2Proof

/-- A word that decodes, with an opcode above WRITE's, has no bit set outside its opcode (30_encoding.md R61, R63). -/
theorem cmd_eq_commandWord_of_decode_ok {c : Machine.Command} {i : Instr} (h : decode c = .ok i)
    (hop : 2 < (opField c.cmd).toNat) : c.cmd = commandWord (opField c.cmd) 0 0 := by
  rw [← encode_cmd_of_decode_ok h] at hop ⊢
  cases i with
  | init seed => rw [encode, opField_commandWord] at hop; exact absurd hop (by decide)
  | write n data => rw [encode, opField_commandWord] at hop; exact absurd hop (by decide)
  | sum128 => rw [encode, opField_commandWord]
  | sum => rw [encode, opField_commandWord]
  | size => rw [encode, opField_commandWord]

/-- With an opcode above WRITE's, a word with any bit set outside its opcode does not decode (30_encoding.md R67). -/
theorem decode_error_of_ne_commandWord {c : Machine.Command} (hop : 2 < (opField c.cmd).toNat)
    (hne : c.cmd ≠ commandWord (opField c.cmd) 0 0) : ∃ e, decode c = .error e := by
  cases h : decode c with
  | error e => exact ⟨e, rfl⟩
  | ok i => exact absurd (cmd_eq_commandWord_of_decode_ok h hop) hne

/-- The word of SIZE decodes whatever DATA is. -/
theorem decode_size (data : BitVec 128) : decode ⟨0x0000000000000005, data⟩ = .ok .size :=
  calc decode ⟨0x0000000000000005, data⟩
    _ = decode ⟨0x0000000000000005, 0⟩ := decode_eq_of_opField_ne_write data 0 (by decide)
    _ = .ok .size := by rfl

end Sys2Proof

namespace Sys2Proof.Machine

/-- The state after SIZE. -/
theorem exec_size (s : State) : exec .size s = .next (respond (valueResponse 16) s) := rfl

/-- Settles O25: the state after SIZE, and that its word alone decodes with its opcode. -/
theorem sizeReturnsSixteen : Obligations.SizeReturnsSixteen := by
  refine ⟨exec_size, fun data => decode_size data, fun c hop hne => ?_⟩
  have hword : commandWord (opField c.cmd) 0 0 = 0x0000000000000005 := by rw [hop]; decide
  exact decode_error_of_ne_commandWord (by rw [hop]; decide) (hword ▸ hne)

/-- Settles O32: the steps by definition, and the values by running them. -/
theorem finalizerSteps : Obligations.FinalizerSteps := by
  refine ⟨?_, by unfold fmix64; decide, by unfold fmix64; decide, by unfold fmix64; decide⟩
  rintro k x y rfl rfl
  unfold fmix64
  rfl

/-- `t` has the engine of `s`: the digest, the status registers and the count of free values. The host's side of the run, its
index and responses among it, may differ. -/
structure SameEngine (s t : State) : Prop where
  digest     : t.digest = s.digest
  statusKept : StatusKept s t

/-- A response leaves the engine as it was. -/
theorem sameEngine_respond (r : Response) (s : State) : SameEngine s (respond r s) := ⟨rfl, rfl, rfl, rfl⟩

theorem SameEngine.trans {s t u : State} (h : SameEngine s t) (k : SameEngine t u) : SameEngine s u := by
  obtain ⟨hdigest, hstatus, hfcmd, hfree⟩ := h
  obtain ⟨kdigest, kstatus, kfcmd, kfree⟩ := k
  exact ⟨kdigest.trans hdigest, kstatus.trans hstatus, kfcmd.trans hfcmd, kfree.trans hfree⟩

/-- Two states with the same engine still have it after the same response. -/
theorem SameEngine.respond {s t : State} (h : SameEngine s t) (r : Response) :
    SameEngine (Machine.respond r s) (Machine.respond r t) :=
  ⟨h.digest, h.statusKept.status, h.statusKept.fcmd, h.statusKept.freeCount⟩

/-- They still have it when both take a new digest. -/
theorem SameEngine.withDigest {s t : State} (h : SameEngine s t) (g : Digest) :
    SameEngine { s with digest := g } { t with digest := g } :=
  ⟨rfl, h.statusKept.status, h.statusKept.fcmd, h.statusKept.freeCount⟩

/-- They still have it when both lose the digest: both draw the free values under the same number (60_exceptions.md R154). -/
theorem SameEngine.loseDigest {s t : State} (h : SameEngine s t) :
    SameEngine (Machine.loseDigest s) (Machine.loseDigest t) := by
  obtain ⟨-, hstatus, hfcmd, hfree⟩ := h
  exact ⟨by simp only [Machine.loseDigest, hfree], hstatus, hfcmd, congrArg (· + 1) hfree⟩

/-- They still have it after both enter the same fault. -/
theorem SameEngine.raiseFault {s t : State} (h : SameEngine s t) (f : FaultCause) (cmd : BitVec 64) :
    SameEngine (Machine.raiseFault f cmd s) (Machine.raiseFault f cmd t) := by
  obtain ⟨hdigest, hstatus, -, hfree⟩ := h
  exact ⟨hdigest, congrArg (statusWithFault f) hstatus, rfl, hfree⟩

/-- The response that fault entry adds. -/
theorem raiseFault_responses (f : FaultCause) (cmd : BitVec 64) (s : State) :
    (raiseFault f cmd s).responses = s.responses ++ [⟨.err, (statusCause (statusWithFault f s.status)).zeroExtend 128⟩] := rfl

/-- SUM128, SUM and SIZE only answer, and the answer is a function of the digest (R126). -/
theorem exec_of_isRead {i : Instr} (hi : isRead i = true) (g : Digest) :
    ∃ r, ∀ s : State, s.digest = g → exec i s = .next (respond r s) := by
  cases i with
  | init seed => cases hi
  | write n data => cases hi
  | sum128 => exact ⟨valueResponse (sum128Value (finalize g)), by rintro s rfl; rfl⟩
  | sum => exact ⟨valueResponse (packLanes (sumBytes (finalize g))), by rintro s rfl; rfl⟩
  | size => exact ⟨valueResponse 16, fun s _ => exec_size s⟩

/-- `SameEngine.exec` for the commands that only answer. -/
theorem SameEngine.exec_of_isRead {i : Instr} {s t u : State} (h : SameEngine s t) (hi : isRead i = true)
    (hu : Machine.exec i s = .next u) :
    ∃ v r, Machine.exec i t = .next v ∧ SameEngine u v ∧ u.responses = s.responses ++ [r] ∧ v.responses = t.responses ++ [r] := by
  obtain ⟨r, hr⟩ := Machine.exec_of_isRead hi s.digest
  rw [hr s rfl] at hu
  cases hu
  exact ⟨_, r, hr t h.digest, h.respond r, rfl, rfl⟩

/-- `SameEngine.exec` for WRITE: both write the same digest, or both enter the same fault. -/
theorem SameEngine.execWrite {n : BitVec 5} {data : BitVec 128} {s t u : State} (h : SameEngine s t)
    (hu : Machine.execWrite n data s = .next u) :
    ∃ v r, Machine.execWrite n data t = .next v ∧ SameEngine u v ∧ u.responses = s.responses ++ [r] ∧
      v.responses = t.responses ++ [r] := by
  rcases execWrite_cases n data s with ⟨g, hg, hs⟩ | ⟨f, hf, hs⟩
  · rw [hs] at hu
    cases hu
    exact ⟨_, ackResponse, by rw [Machine.execWrite, h.digest, hg], (h.withDigest g).respond _, rfl, rfl⟩
  · rw [hs] at hu
    cases hu
    refine ⟨_, _, by rw [Machine.execWrite, h.digest, hf], h.loseDigest.raiseFault f _, raiseFault_responses .., ?_⟩
    rw [raiseFault_responses, h.loseDigest.statusKept.status]
    rfl

/-- A command does the same to two states with the same engine and answers both alike: no command reads the host's side. -/
theorem SameEngine.exec {i : Instr} {s t u : State} (h : SameEngine s t) (hu : Machine.exec i s = .next u) :
    ∃ v r, Machine.exec i t = .next v ∧ SameEngine u v ∧ u.responses = s.responses ++ [r] ∧
      v.responses = t.responses ++ [r] := by
  cases i with
  | init seed =>
    rw [exec_init] at hu
    cases hu
    exact ⟨_, ackResponse, by rw [exec_init, h.digest], (h.withDigest _).respond _, rfl, rfl⟩
  | write n data => exact h.execWrite hu
  | sum128 => exact h.exec_of_isRead rfl hu
  | sum => exact h.exec_of_isRead rfl hu
  | size => exact h.exec_of_isRead rfl hu

/-- A sequence of commands leads to `u` through the state after its first command. -/
theorem execList_cons {i : Instr} {is : List Instr} {s u : State} :
    execList (i :: is) s = .next u ↔ ∃ m, exec i s = .next m ∧ execList is m = .next u := by
  obtain ⟨m, hm⟩ := exec_answers i s
  simp [execList, hm]

/-- A sequence of commands does the same to two states with the same engine and adds the same responses to both. -/
theorem SameEngine.execList {is : List Instr} {s t u : State} (h : SameEngine s t)
    (hu : Machine.execList is s = .next u) :
    ∃ v rs, Machine.execList is t = .next v ∧ SameEngine u v ∧ u.responses = s.responses ++ rs ∧
      v.responses = t.responses ++ rs := by
  induction is generalizing s t with
  | nil => cases hu; exact ⟨t, [], rfl, h, by simp, by simp⟩
  | cons i is ih =>
    obtain ⟨m, hm, hu⟩ := execList_cons.mp hu
    obtain ⟨m', r, hm', hsame, hr, hr'⟩ := h.exec hm
    obtain ⟨v, rs, hv, hsame, hrs, hrs'⟩ := ih hsame hu
    exact ⟨v, r :: rs, execList_cons.mpr ⟨m', hm', hv⟩, hsame, by rw [hrs, hr, List.append_assoc]; rfl,
      by rw [hrs', hr', List.append_assoc]; rfl⟩

/-- Any number of SUM128, SUM and SIZE leave the engine as it was (R126). -/
theorem execList_of_isRead {reads : List Instr} (s : State) (hreads : ∀ i ∈ reads, isRead i = true) :
    ∃ t, execList reads s = .next t ∧ SameEngine s t := by
  induction reads generalizing s with
  | nil => exact ⟨s, rfl, rfl, rfl, rfl, rfl⟩
  | cons i reads ih =>
    obtain ⟨hi, hrest⟩ := List.forall_mem_cons.mp hreads
    obtain ⟨r, hr⟩ := exec_of_isRead hi s.digest
    obtain ⟨t, ht, hsame⟩ := ih (respond r s) hrest
    exact ⟨t, execList_cons.mpr ⟨_, hr s rfl, ht⟩, (sameEngine_respond r s).trans hsame⟩

/-- Settles O27: the reads leave the engine as it was, and what follows depends on the engine alone. -/
theorem readsMayStandAnywhere : Obligations.ReadsMayStandAnywhere := by
  intro reads s hreads
  obtain ⟨t, ht, hsame⟩ := execList_of_isRead s hreads
  refine ⟨t, ht, hsame.digest, hsame.statusKept, fun is u hu => ?_⟩
  obtain ⟨v, rs, hv, hkept, hrs, hrs'⟩ := hsame.execList hu
  exact ⟨v, hv, hkept.digest, hkept.statusKept, by rw [hrs, hrs', List.drop_left, List.drop_left]⟩

end Sys2Proof.Machine

/-! The response of SUM as bytes (30_encoding.md R66; 42_finalization.md R124), and SUMP, which puts them after those the host has
already (43_convenience.md R144). -/

namespace Sys2Proof.Machine

theorem lane_zero (j : Nat) : lane 0 j = 0 := by simp [lane]

theorem lane_or (v w : BitVec 128) (j : Nat) : lane (v ||| w) j = lane v j ||| lane w j := by
  simp [lane, BitVec.extractLsb'_or]

/-- A byte shifted to lane `k` stands in that lane and in no other. -/
theorem lane_byte_shiftLeft (b : Byte) (k : Nat) {j : Nat} (hj : j < 16) :
    lane (b.zeroExtend 128 <<< (8 * k)) j = if j = k then b else 0 := by
  apply BitVec.eq_of_getLsbD_eq
  intro i hi
  have hbit : 8 * j + i < 128 := by omega
  simp only [lane, BitVec.getLsbD_extractLsb', BitVec.getLsbD_shiftLeft, BitVec.getLsbD_setWidth, hi, hbit]
  obtain hlt | rfl | hgt := Nat.lt_trichotomy j k
  · have hbelow : 8 * j + i < 8 * k := by omega
    simp [hbelow, hlt.ne]
  · have hwide : i < 128 := by omega
    simp [hwide]
  · have habove : 8 ≤ 8 * j + i - 8 * k := by omega
    simp [BitVec.getLsbD_of_ge b _ habove, hgt.ne']

/-- Bytes put into the first `n` lanes one after another: each keeps its lane, and the lanes from `n` on stay 0. -/
theorem lane_foldl_or (f : Nat → Byte) (n : Nat) {j : Nat} (hj : j < 16) :
    lane ((List.range n).foldl (fun v k => v ||| ((f k).zeroExtend 128 <<< (8 * k))) 0) j = if j < n then f j else 0 := by
  induction n with
  | zero => exact lane_zero j
  | succ n ih =>
    rw [List.range_succ, List.foldl_append, List.foldl_cons, List.foldl_nil, lane_or, ih, lane_byte_shiftLeft _ _ hj]
    obtain hlt | rfl | hgt := Nat.lt_trichotomy j n
    · simp [hlt, hlt.ne, Nat.lt_add_one_of_lt hlt]
    · simp
    · simp [hgt.not_gt, hgt.ne', hgt]

/-- Lane `j` of packed bytes is byte `j` (R66). -/
theorem lane_packLanes (d : List Byte) {j : Nat} (hj : j < 16) : lane (packLanes d) j = d.getD j 0 := by
  rw [packLanes, lane_foldl_or (fun k => d.getD k 0) 16 hj, if_pos hj]

/-- Up to 16 bytes come back from the lanes they were packed into. -/
theorem beatBytes_packLanes (d : List Byte) (hd : d.length ≤ 16) : beatBytes d.length (packLanes d) = d := by
  apply List.ext_getElem (length_beatBytes _ _)
  intro i _ hi
  simp only [beatBytes, List.getElem_map, List.getElem_range]
  rw [lane_packLanes d (by omega), List.getD_eq_getElem _ _ hi]

/-- The bytes of SUM's response are the big-endian bytes of the pair (R124). -/
theorem responseBytes_packLanes_sumBytes (r : U64 × U64) : responseBytes (packLanes (sumBytes r)) = sumBytes r := by
  have h := beatBytes_packLanes (sumBytes r) (length_sumBytes r).le
  rwa [length_sumBytes] at h

/-- The state after SUM. -/
theorem exec_sum (s : State) :
    exec .sum s = .next (respond (valueResponse (packLanes (sumBytes (finalize s.digest)))) s) := rfl

/-- The result of SUMP, from the response SUM gives. -/
theorem sumpResult_packLanes_sumBytes (before : List Byte) (r : U64 × U64) :
    sumpResult before (packLanes (sumBytes r)) = before ++ sumBytes r := by
  rw [sumpResult, responseBytes_packLanes_sumBytes]

/-- Settles O43: SUM answers the packed bytes of the pair, and they come back from its lanes in order. -/
theorem sumpAppendsDigest : Obligations.SumpAppendsDigest := by
  intro before s
  have hresult := sumpResult_packLanes_sumBytes before (finalize s.digest)
  have hlength : (before ++ sumBytes (finalize s.digest)).length = before.length + 16 := by
    rw [List.length_append, length_sumBytes]
  exact ⟨rfl, _, _, exec_sum s, respond_responses .., hresult, (congrArg List.length hresult).trans hlength⟩

end Sys2Proof.Machine

/-! The exceptions (60_exceptions.md): which words raise ILLEGAL_COMMAND (R151), what fault entry records (R153), and that the fault
state refuses every command (R155) and is left by reset alone (R157). -/

namespace Sys2Proof

/-- The words that R151 lists as raising ILLEGAL_COMMAND. -/
def IllegalWord (cmd : BitVec 64) : Prop :=
  opField cmd = 0 ∨ 6 ≤ (opField cmd).toNat ∨ rsvField cmd ≠ 0 ∨ (nField cmd ≠ 0 ∧ opField cmd ≠ 2) ∨
    (16 < (nField cmd).toNat ∧ opField cmd = 2) ∨ (immField cmd ≠ 0 ∧ opField cmd ≠ 1)

/-- The opcodes: the five of R62, and the reserved ones of R67. -/
theorem opcode_cases (op : BitVec 4) :
    op = 1 ∨ op = 2 ∨ (op = 3 ∨ op = 4 ∨ op = 5) ∨ (op = 0 ∨ 6 ≤ op.toNat) := by
  revert op; decide

/-- A reserved opcode is none of the five. -/
theorem reservedOpcode_ne {op : BitVec 4} (h : op = 0 ∨ 6 ≤ op.toNat) :
    op ≠ 1 ∧ op ≠ 2 ∧ op ≠ 3 ∧ op ≠ 4 ∧ op ≠ 5 := by
  revert op; decide

/-- What follows a check of the decoder decodes to a command exactly when the check passes and the rest decodes to one. -/
theorem exists_ok_of_check_iff {p : Prop} [Decidable p] (e : Illegal) (rest : Except Illegal Instr) :
    (∃ i, (if p then .error e else rest) = .ok i) ↔ ¬ p ∧ ∃ i, rest = .ok i := by
  split <;> simp [*]

/-- Exactly the words that R151 does not list decode, whatever DATA is. -/
theorem exists_decode_ok_iff (c : Machine.Command) : (∃ i, decode c = .ok i) ↔ ¬ IllegalWord c.cmd := by
  unfold IllegalWord
  rw [decode, exists_ok_of_check_iff]
  rcases opcode_cases (opField c.cmd) with hop | hop | (hop | hop | hop) | hop
  · rw [hop, if_pos rfl, exists_ok_of_check_iff]
    simp
  · rw [hop, if_neg (by decide), if_pos rfl, exists_ok_of_check_iff, exists_ok_of_check_iff]
    simp
  · simp [hop, bareCommand_eq_ok]
  · simp [hop, bareCommand_eq_ok]
  · simp [hop, bareCommand_eq_ok]
  · obtain ⟨h1, h2, h3, h4, h5⟩ := reservedOpcode_ne hop
    rw [if_neg h1, if_neg h2, if_neg h3, if_neg h4, if_neg h5]
    exact iff_of_false (by simp) (not_not.mpr (hop.imp_right .inl))

end Sys2Proof

namespace Sys2Proof.Machine

/-- Out of the fault state, a waiting command whose word does not decode raises ILLEGAL_COMMAND (R156). -/
theorem step_of_decode_error {s : State} {c : Command} {e : Illegal} (hf : s.faulted = false) (hc : fetch s = some c)
    (hd : decode c = .error e) : step s = .next (raiseFault .illegalCommand c.cmd s) := by
  simp [step, hc, hf, hd]

/-- Out of the fault state, a waiting command whose word decodes is executed (R156). -/
theorem step_of_decode_ok {s : State} {c : Command} {i : Instr} (hf : s.faulted = false) (hc : fetch s = some c)
    (hd : decode c = .ok i) : step s = exec i s := by
  simp [step, hc, hf, hd]

/-- STATUS after fault entry, bit by bit: FAULT, the cause's code, and the reserved bits as they were (R30, R153). -/
theorem getLsbD_statusWithFault (f : FaultCause) (st : BitVec 32) (b : Nat) :
    (statusWithFault f st).getLsbD b =
      if b = 0 then true else if b < 4 then f.code.getLsbD (b - 1) else st.getLsbD b := by
  have hmask : (0xFFFFFFF0#32).getLsbD b = (decide (b < 32) && !decide (b < 4)) := by
    rw [show 0xFFFFFFF0#32 = BitVec.allOnes 32 <<< 4 by rfl, BitVec.getLsbD_shiftLeft, BitVec.getLsbD_allOnes]
    by_cases hb : b < 32
    · simp [hb, show b - 4 < 32 by omega]
    · simp [hb]
  simp only [statusWithFault, BitVec.getLsbD_or, BitVec.getLsbD_and, hmask]
  split
  next h0 => simp [h0]
  split
  next h0 h4 => simp [h0, h4, show b < 32 by omega]
  next h0 h4 =>
    have hcode : f.code.getLsbD (b - 1) = false := BitVec.getLsbD_of_ge _ _ (by omega)
    simpa [h0, h4, hcode] using BitVec.lt_of_getLsbD

/-- Fault entry sets `STATUS.CAUSE` to the cause's code (R153). -/
@[simp] theorem statusCause_statusWithFault (f : FaultCause) (st : BitVec 32) :
    statusCause (statusWithFault f st) = f.code := by
  apply BitVec.eq_of_getLsbD_eq
  intro i hi
  simp [statusCause, getLsbD_statusWithFault, hi, show 1 + i < 4 by omega]

/-- Fault entry answers ERR with the cause's code and leaves the host's data as they were (R153). -/
theorem raiseFault_answered (f : FaultCause) (cmd : BitVec 64) (s : State) :
    Answered s (raiseFault f cmd s) ⟨.err, f.code.zeroExtend 128⟩ where
  responses := by rw [raiseFault_responses, statusCause_statusWithFault]
  pc := raiseFault_pc ..
  prog := raiseFault_prog ..
  nextRuns := raiseFault_nextRuns ..

/-- Settles O8: the listed words are exactly those that do not decode, and a step either raises the fault or executes. -/
theorem illegalCommandRaises : Obligations.IllegalCommandRaises := by
  intro s c hc hf
  have hdecode := exists_decode_ok_iff c
  refine ⟨fun hbad => ?_, fun hgood => ?_⟩
  · cases hd : decode c with
    | ok i => exact absurd hbad (hdecode.mp ⟨i, hd⟩)
    | error e =>
      exact ⟨_, step_of_decode_error hf hc hd, statusFault_statusWithFault .., statusCause_statusWithFault .., rfl,
        raiseFault_answered .., rfl, rfl⟩
  · obtain ⟨i, hi⟩ := hdecode.mpr hgood
    exact ⟨i, hi, step_of_decode_ok hf hc hi⟩

/-- While commands wait, steps in the fault state answer each with ERR and the cause, and change nothing else (R155). -/
theorem steps_of_faulted (k : Nat) {s : State} (hf : s.faulted = true) (hk : s.pc + k ≤ s.prog.length) :
    steps k s = .next { s with pc := s.pc + k, responses := s.responses ++ List.replicate k (errResponse s) } := by
  induction k generalizing s with
  | zero => simp [steps]
  | succ k ih =>
    have hc : fetch s = some s.prog[s.pc] := List.getElem?_eq_getElem (by omega)
    have hrest := ih (s := refuse s) hf (by rw [refuse_pc, refuse_prog]; omega)
    simp only [steps, step_of_faulted hf hc, hrest]
    simp [refuse, respond, errResponse, List.replicate_succ, show s.pc + 1 + k = s.pc + (k + 1) by omega]

/-- Settles O10: the state after the refused commands, whose STATUS still shows the fault. -/
theorem faultStateRefusesEveryCommand : Obligations.FaultStateRefusesEveryCommand := by
  intro k s hf hk
  have hrun := steps_of_faulted k hf hk
  refine ⟨hrun, fun t ht ⟨_, hok⟩ => ?_⟩
  rw [hrun] at ht
  cases ht
  exact Bool.false_ne_true (hok.symm.trans hf)

/-- Settles O9: the bits of STATUS after fault entry, and its answer. -/
theorem faultEntryRecords : Obligations.FaultEntryRecords := by
  intro f cmd s
  refine ⟨statusFault_statusWithFault .., ?_, fun b hb => ?_, rfl, rfl, rfl, ?_⟩
  · rw [raiseFault_status, statusCause_statusWithFault]
    cases f <;> rfl
  · rw [raiseFault_status, getLsbD_statusWithFault, if_neg (by omega), if_neg (by omega)]
  · cases f <;> exact raiseFault_answered ..

/-- Between runs the engine keeps its whole state, or is reset for the host's next run (70_reset_and_hazards.md R170). -/
theorem betweenRuns_cases (s : State) :
    betweenRuns s = s ∨ ∃ p rest, betweenRuns s = { engineReset s with prog := p, nextRuns := rest } := by
  unfold betweenRuns
  split
  · exact .inl rfl
  · exact .inr ⟨_, _, rfl⟩

/-- A step that clears FAULT is a reset, taken with no command waiting (R157). -/
theorem step_clears_fault {s t : State} (hf : s.faulted = true) (h : step s = .next t) (ht : t.faulted = false) :
    fetch s = none ∧ ∃ p rest, t = { engineReset s with prog := p, nextRuns := rest } := by
  rcases step_cases s with ⟨hnone, hstep⟩ | ⟨c, -, ⟨-, hstep⟩ | ⟨hok, -⟩ | ⟨hok, -⟩⟩
  · rw [hstep] at h
    cases h
    rcases betweenRuns_cases s with hs | hreset
    · rw [hs] at ht; cases ht.symm.trans hf
    · exact ⟨hnone, hreset⟩
  · rw [hstep] at h
    cases h
    cases ht.symm.trans hf
  · cases hok.symm.trans hf
  · cases hok.symm.trans hf

/-- Settles O11: a waiting command is refused, and the only other step from the fault state is the reset. -/
theorem onlyResetLeavesFaultState : Obligations.OnlyResetLeavesFaultState := by
  refine ⟨fun s c hf hc => ⟨_, step_of_faulted hf hc, rfl, rfl, rfl⟩, fun s t hf h ht => ?_⟩
  obtain ⟨hnone, p, rest, rfl⟩ := step_clears_fault hf h ht
  exact ⟨hnone, rfl, rfl, rfl, rfl, rfl, rfl, rfl⟩

end Sys2Proof.Machine

/-! The command words (30_encoding.md): decoding and encoding undo each other (R68), and the two forms of R63, the formula and the
table, name the same words. -/

namespace Sys2Proof

/-- A word with N and IMM 0 passes the checks of a command without operands. -/
theorem bareCommand_commandWord (op : BitVec 4) (i : Instr) : bareCommand (commandWord op 0 0) i = .ok i :=
  (bareCommand_eq_ok ..).mpr ⟨nField_commandWord .., immField_commandWord .., rfl⟩

/-- The decoder reads from a command's own transaction that command. -/
theorem decode_encode {i : Instr} (hwf : i.wf = true) : decode (encode i) = .ok i := by
  cases i with
  | init seed =>
    rw [encode, decode, rsvField_commandWord, opField_commandWord, nField_commandWord, immField_commandWord]
    rfl
  | write n data =>
    have hn : ¬ Config.nMax < n.toNat := not_lt.mpr (of_decide_eq_true hwf)
    rw [encode, decode, rsvField_commandWord, opField_commandWord, nField_commandWord, immField_commandWord, if_neg hn]
    rfl
  | sum128 =>
    rw [encode, decode, rsvField_commandWord, opField_commandWord]
    exact bareCommand_commandWord 3 .sum128
  | sum =>
    rw [encode, decode, rsvField_commandWord, opField_commandWord]
    exact bareCommand_commandWord 4 .sum
  | size =>
    rw [encode, decode, rsvField_commandWord, opField_commandWord]
    exact bareCommand_commandWord 5 .size

/-- Settles O2: `decode_encode`, by the command's constructor and the fields of its word. -/
theorem decodeInvertsEncode : Obligations.DecodeInvertsEncode := fun _ hwf => decode_encode hwf

/-- The words that R63's formula calls legal. -/
def LegalWord (cmd : BitVec 64) : Prop :=
  rsvField cmd = 0 ∧
    ((opField cmd = 1 ∧ nField cmd = 0) ∨
     (opField cmd = 2 ∧ (nField cmd).toNat ≤ 16 ∧ immField cmd = 0) ∨
     ((opField cmd = 3 ∨ opField cmd = 4 ∨ opField cmd = 5) ∧ nField cmd = 0 ∧ immField cmd = 0))

theorem legal_iff_legalWord (cmd : BitVec 64) : legal cmd = true ↔ LegalWord cmd := by
  simp [legal, LegalWord, and_assoc, or_assoc]

/-- The formula of R63 and the list of R151 are complements, opcode by opcode. -/
theorem legalWord_iff_not_illegalWord (cmd : BitVec 64) : LegalWord cmd ↔ ¬ IllegalWord cmd := by
  unfold LegalWord IllegalWord
  rcases opcode_cases (opField cmd) with hop | hop | (hop | hop | hop) | hop
  · simp [hop, and_comm]
  · simp [hop]
  · simp [hop]
  · simp [hop]
  · simp [hop]
  · obtain ⟨h1, h2, h3, h4, h5⟩ := reservedOpcode_ne hop
    exact iff_of_false (by tauto) (not_not.mpr (hop.imp_right .inl))

/-- Settles O4: the formula is the complement of the words that do not decode. -/
theorem legalWordsDecode : Obligations.LegalWordsDecode :=
  fun cmd data => (exists_decode_ok_iff ⟨cmd, data⟩).trans (legalWord_iff_not_illegalWord cmd).symm

/-- What decodes is well-formed: a WRITE's count over 16 would make its word illegal (R151). -/
theorem wf_of_decode_ok {c : Machine.Command} {i : Instr} (h : decode c = .ok i) : i.wf = true := by
  have hlegal : ¬ IllegalWord (encode i).cmd := by
    rw [encode_cmd_of_decode_ok h]
    exact (exists_decode_ok_iff c).mp ⟨i, h⟩
  cases i with
  | write n data =>
    refine decide_eq_true (not_lt.mp fun hn => hlegal (.inr (.inr (.inr (.inr (.inl ?_))))))
    rw [encode, nField_commandWord, opField_commandWord]
    exact ⟨hn, rfl⟩
  | init seed => rfl
  | sum128 => rfl
  | sum => rfl
  | size => rfl

/-- A decoded WRITE has the beat of its transaction (R65): the transaction is that of the WRITE with its own beat, and decodes
to that. -/
theorem beat_of_decode_write {c : Machine.Command} {n : BitVec 5} {data : BitVec 128}
    (h : decode c = .ok (.write n data)) : data = c.data := by
  have hown : encode (.write n c.data) = c := congrArg (Machine.Command.mk · c.data) (encode_cmd_of_decode_ok h)
  have hdec : decode c = .ok (.write n c.data) := by
    have hwf := wf_of_decode_ok h
    rw [← hown]
    exact decode_encode hwf
  cases h.symm.trans hdec
  rfl

/-- Settles O3: the word is unique, so well-formedness and the beat can be read off the command's own transaction. -/
theorem encodeInvertsDecode : Obligations.EncodeInvertsDecode := by
  refine fun c i h => ⟨wf_of_decode_ok h, encode_cmd_of_decode_ok h, ?_⟩
  rintro n data rfl
  exact beat_of_decode_write h

/-- Words with an equal field have its bits equal. -/
theorem getLsbD_eq_of_extractLsb'_eq {a b : BitVec 64} {start len i : Nat}
    (h : a.extractLsb' start len = b.extractLsb' start len) (hlo : start ≤ i) (hhi : i < start + len) :
    a.getLsbD i = b.getLsbD i := by
  have hbit := congrArg (BitVec.getLsbD · (i - start)) h
  simpa [show i - start < len by omega, show start + (i - start) = i by omega] using hbit

/-- The fields cover the word (R61). -/
theorem word_eq_iff_fields (a b : BitVec 64) :
    a = b ↔ opField a = opField b ∧ nField a = nField b ∧ rsvField a = rsvField b ∧ immField a = immField b := by
  refine ⟨by rintro rfl; exact ⟨rfl, rfl, rfl, rfl⟩, fun ⟨hop, hn, hrsv, himm⟩ => ?_⟩
  apply BitVec.eq_of_getLsbD_eq
  intro i hi
  rcases Nat.lt_or_ge i 4 with h4 | h4
  · exact getLsbD_eq_of_extractLsb'_eq hop (Nat.zero_le i) h4
  rcases Nat.lt_or_ge i 9 with h9 | h9
  · exact getLsbD_eq_of_extractLsb'_eq hn h4 h9
  rcases Nat.lt_or_ge i 32 with h32 | h32
  · exact getLsbD_eq_of_extractLsb'_eq hrsv h9 h32
  · exact getLsbD_eq_of_extractLsb'_eq himm h32 hi

/-- A word matches a row when each of its fields does, under that field of the mask. -/
theorem matchesWord_iff_fields (r : OpcodeRow) (cmd : BitVec 64) :
    r.matchesWord cmd = true ↔
      opField cmd &&& opField r.mask = opField r.pattern ∧ nField cmd &&& nField r.mask = nField r.pattern ∧
      rsvField cmd &&& rsvField r.mask = rsvField r.pattern ∧ immField cmd &&& immField r.mask = immField r.pattern := by
  rw [OpcodeRow.matchesWord, beq_iff_eq, word_eq_iff_fields]
  simp only [opField, nField, rsvField, immField, BitVec.extractLsb'_and]

/-- A mask that covers a field leaves it as it is. -/
theorem and_eq_self_of_covers {w : Nat} {m : BitVec w} (x : BitVec w) (hm : m = BitVec.allOnes w) : x &&& m = x := by
  rw [hm, BitVec.and_allOnes]

/-- INIT's mask covers every field but IMM, whose pattern is 0 under it. -/
theorem matchesWord_init_iff (cmd : BitVec 64) :
    OpcodeRow.matchesWord ⟨"INIT", 0x0000000000000001, 0x00000000FFFFFFFF, none⟩ cmd = true ↔
      opField cmd = 1 ∧ nField cmd = 0 ∧ rsvField cmd = 0 := by
  have himm : immField cmd &&& immField 0x00000000FFFFFFFF = immField 0x0000000000000001 := BitVec.and_zero
  rw [matchesWord_iff_fields, and_eq_self_of_covers (opField cmd) (by decide), and_eq_self_of_covers (nField cmd) (by decide),
    and_eq_self_of_covers (rsvField cmd) (by decide)]
  exact and_congr_right' (and_congr_right' (and_iff_left himm))

/-- WRITE's mask covers every field but N, whose pattern is 0 under it. -/
theorem matchesWord_write_iff (cmd : BitVec 64) :
    OpcodeRow.matchesWord ⟨"WRITE", 0x0000000000000002, 0xFFFFFFFFFFFFFE0F, some Config.nMax⟩ cmd = true ↔
      opField cmd = 2 ∧ rsvField cmd = 0 ∧ immField cmd = 0 := by
  have hn : nField cmd &&& nField 0xFFFFFFFFFFFFFE0F = nField 0x0000000000000002 := BitVec.and_zero
  rw [matchesWord_iff_fields, and_eq_self_of_covers (opField cmd) (by decide), and_eq_self_of_covers (rsvField cmd) (by decide),
    and_eq_self_of_covers (immField cmd) (by decide)]
  exact and_congr_right' (and_iff_right hn)

/-- The other rows' mask covers the whole word. -/
theorem matchesWord_bare_iff (m : String) (op : BitVec 4) (cmd : BitVec 64) :
    OpcodeRow.matchesWord ⟨m, commandWord op 0 0, 0xFFFFFFFFFFFFFFFF, none⟩ cmd = true ↔
      opField cmd = op ∧ nField cmd = 0 ∧ rsvField cmd = 0 ∧ immField cmd = 0 := by
  have hmask : cmd &&& 0xFFFFFFFFFFFFFFFF = cmd := and_eq_self_of_covers cmd (by decide)
  simp only [OpcodeRow.matchesWord, beq_iff_eq, hmask, word_eq_iff_fields, opField_commandWord, nField_commandWord,
    rsvField_commandWord, immField_commandWord]

/-- The words of the table's rows are the legal words. -/
theorem exists_row_iff (cmd : BitVec 64) :
    (∃ r ∈ opcodeTable, r.matchesWord cmd = true ∧ r.meetsLimit cmd = true) ↔ LegalWord cmd := by
  have hsum128 := matchesWord_bare_iff "SUM128" 3 cmd
  have hsum := matchesWord_bare_iff "SUM" 4 cmd
  have hsize := matchesWord_bare_iff "SIZE" 5 cmd
  rw [show commandWord 3 0 0 = 0x0000000000000003 by decide] at hsum128
  rw [show commandWord 4 0 0 = 0x0000000000000004 by decide] at hsum
  rw [show commandWord 5 0 0 = 0x0000000000000005 by decide] at hsize
  simp only [opcodeTable, List.mem_cons, List.not_mem_nil, or_false, exists_eq_or_imp, exists_eq_left, OpcodeRow.meetsLimit,
    matchesWord_init_iff, matchesWord_write_iff, hsum128, hsum, hsize, decide_eq_true_eq, and_true, LegalWord]
  grind

/-- No two rows have the same opcode. -/
theorem row_eq_of_opField_eq : ∀ r ∈ opcodeTable, ∀ q ∈ opcodeTable, opField r.pattern = opField q.pattern → r = q := by
  decide

/-- Every row fixes the opcode. -/
theorem opField_of_matchesWord {r : OpcodeRow} (hr : r ∈ opcodeTable) {cmd : BitVec 64} (h : r.matchesWord cmd = true) :
    opField cmd = opField r.pattern := by
  have hmask : ∀ r ∈ opcodeTable, opField r.mask = BitVec.allOnes 4 := by decide
  rw [← ((matchesWord_iff_fields r cmd).mp h).1, and_eq_self_of_covers _ (hmask r hr)]

/-- Settles O5: both forms are read field by field, and a word's opcode names its row. -/
theorem opcodeTableAgreesWithLegality : Obligations.OpcodeTableAgreesWithLegality := by
  refine ⟨fun cmd => (legal_iff_legalWord cmd).trans (exists_row_iff cmd).symm, fun cmd r hr q hq hmr hmq => ?_⟩
  exact row_eq_of_opField_eq r hr q hq ((opField_of_matchesWord hr hmr).symm.trans (opField_of_matchesWord hq hmq))

/-- Settles O1, word by word. -/
theorem sampleWordsDecode : Obligations.SampleWordsDecode := ⟨rfl, rfl, rfl, rfl, rfl, rfl⟩

end Sys2Proof

/-! What accepted commands do from a state at rest, and the streams of whole sequences of WRITEs (10_state.md R27; 40_writer.md R89;
43_convenience.md R146). -/

namespace Sys2Proof.Machine

/-! ## Streams shorter than a block -/

/-- Fewer bytes than a block hold no block. -/
theorem streamBlocks_of_length_lt {d : List Byte} (h : d.length < 16) : streamBlocks d = [] := by
  rw [streamBlocks, Nat.div_eq_of_lt h, pieces]

/-- Fewer bytes than a block all come after the last block. -/
theorem streamTail_of_length_lt {d : List Byte} (h : d.length < 16) : streamTail d = d := by
  rw [streamTail, Nat.div_eq_of_lt h, Nat.mul_zero, List.drop_zero]

/-! ## Writes one after another -/

/-- A write leaves the digest at rest (R25). -/
theorem Wrote.tailLen_le {g k : Digest} {d : List Byte} (h : Wrote g d k) : k.tailLen.toNat ≤ 15 := by
  have := h.tailLen
  omega

/-- At rest fewer than 16 bytes are pending. -/
theorem length_pending_lt {g : Digest} (hrest : g.tailLen.toNat ≤ 15) : g.pending.length < 16 := by
  rw [length_pending g (by omega)]
  omega

/-- Writing nothing leaves a digest at rest as it was. -/
theorem Wrote.refl {g : Digest} (hrest : g.tailLen.toNat ≤ 15) : Wrote g [] g where
  seed := rfl
  acc := by rw [List.append_nil, streamBlocks_of_length_lt (length_pending_lt hrest), foldBlocks_nil]
  pending := by rw [List.append_nil, streamTail_of_length_lt (length_pending_lt hrest)]
  tailLen := by simp only [List.length_nil]; omega
  totalLen := by simp

/-- Two writes are one write of the data of both (R89). -/
theorem Wrote.trans {g k m : Digest} {d e : List Byte} (h : Wrote g d k) (h' : Wrote k e m) : Wrote g (d ++ e) m where
  seed := h'.seed.trans h.seed
  acc := by rw [h'.acc, h.pending, h.acc, ← List.append_assoc, streamBlocks_append (g.pending ++ d) e, foldBlocks_append]
  pending := by rw [h'.pending, h.pending, ← List.append_assoc, streamTail_append (g.pending ++ d) e]
  tailLen := by rw [h'.tailLen, h.tailLen, List.length_append]; omega
  totalLen := by rw [h'.totalLen, h.totalLen, List.length_append, BitVec.ofNat_add, BitVec.add_assoc]

theorem Digest.Same.refl (g : Digest) : g.Same g := ⟨rfl, rfl, rfl, rfl, rfl, rfl⟩

/-- Writes of the same data to digests that agree but for stale bytes leave digests that do. -/
theorem Wrote.same {g k g' k' : Digest} {d : List Byte} (h : Wrote g d k) (h' : Wrote g' d k') (hg : g.Same g') : k.Same k' := by
  have hacc : (k.h1, k.h2) = (k'.h1, k'.h2) := by rw [h.acc, h'.acc, hg.pending, hg.h1, hg.h2]
  obtain ⟨hh1, hh2⟩ := Prod.mk.inj hacc
  exact {
    seed := by rw [h.seed, h'.seed, hg.seed]
    h1 := hh1
    h2 := hh2
    tailLen := BitVec.eq_of_toNat_eq (by rw [h.tailLen, h'.tailLen, hg.tailLen])
    totalLen := by rw [h.totalLen, h'.totalLen, hg.totalLen]
    pending := by rw [h.pending, h'.pending, hg.pending] }

/-- Finalization reads no stale byte (R24). -/
theorem finalize_eq_of_same {g k : Digest} (h : g.Same k) : finalize g = finalize k := by
  change finalizeFrom g.h1 g.h2 g.pending g.tailLen.toNat g.totalLen = finalizeFrom k.h1 k.h2 k.pending k.tailLen.toNat k.totalLen
  rw [h.h1, h.h2, h.pending, h.tailLen, h.totalLen]

/-- New digests of one seed agree but for stale bytes. -/
theorem initDigest_same (seed : BitVec 32) (g k : Digest) : (initDigest seed g).Same (initDigest seed k) where
  seed := by rw [initDigest_seed, initDigest_seed]
  h1 := by rw [initDigest_h1, initDigest_h1]
  h2 := by rw [initDigest_h2, initDigest_h2]
  tailLen := by rw [initDigest_tailLen, initDigest_tailLen]
  totalLen := by rw [initDigest_totalLen, initDigest_totalLen]
  pending := by rw [pending_of_tailLen_zero _ (by simp), pending_of_tailLen_zero _ (by simp)]

/-! ## Commands from a state at rest -/

/-- What a command leaves of a digest at rest. -/
def DigestAfter (g k : Digest) : Instr → Prop
  | .init seed => k = initDigest seed g
  | .write n data => Wrote g (beatBytes n.toNat data) k
  | .sum128 => k = g
  | .sum => k = g
  | .size => k = g

/-- What a command answers from a digest at rest (30_encoding.md R66). -/
def restResponse (g : Digest) : Instr → Response
  | .init _ => ackResponse
  | .write _ _ => ackResponse
  | .sum128 => valueResponse (sum128Value (finalize g))
  | .sum => valueResponse (packLanes (sumBytes (finalize g)))
  | .size => valueResponse 16

/-- From a state at rest a command only answers and leaves its digest. -/
theorem exec_rest (i : Instr) {s : State} (hrest : s.digest.tailLen.toNat ≤ 15) :
    ∃ g, DigestAfter s.digest g i ∧ exec i s = .next (respond (restResponse s.digest i) { s with digest := g }) := by
  cases i with
  | init seed => exact ⟨_, rfl, rfl⟩
  | write n data => exact execWrite_rest n data s hrest
  | sum128 => exact ⟨_, rfl, rfl⟩
  | sum => exact ⟨_, rfl, rfl⟩
  | size => exact ⟨_, rfl, rfl⟩

/-- A command keeps the digest standing for its stream (R27). -/
theorem DigestAfter.represents {g k : Digest} {i : Instr} {stream : List Byte} (h : DigestAfter g k i)
    (hg : g.Represents stream) : k.Represents (streamAfter stream i) := by
  cases i with
  | init seed => cases h; exact initDigest_represents seed g
  | write n data => exact Wrote.represents h hg
  | sum128 => cases h; exact hg
  | sum => cases h; exact hg
  | size => cases h; exact hg

/-- A command on digests that agree but for stale bytes leaves digests that do (R24). -/
theorem DigestAfter.same {g k g' k' : Digest} {i : Instr} (h : DigestAfter g k i) (h' : DigestAfter g' k' i)
    (hg : g.Same g') : k.Same k' := by
  cases i with
  | init seed => cases h; cases h'; exact initDigest_same seed g g'
  | write n data => exact Wrote.same h h' hg
  | sum128 => cases h; cases h'; exact hg
  | sum => cases h; cases h'; exact hg
  | size => cases h; cases h'; exact hg

/-- No response shows a stale byte. -/
theorem restResponse_eq_of_same {g k : Digest} (h : g.Same k) (i : Instr) : restResponse g i = restResponse k i := by
  cases i with
  | init seed => rfl
  | write n data => rfl
  | sum128 => rw [restResponse, restResponse, finalize_eq_of_same h]
  | sum => rw [restResponse, restResponse, finalize_eq_of_same h]
  | size => rfl

/-- Settles O39: both states are at rest, and answer and write alike. -/
theorem staleBytesAreNeverRead : Obligations.StaleBytesAreNeverRead := by
  intro i s u _ hrest hsame
  obtain ⟨g, hg, hs⟩ := exec_rest i hrest
  obtain ⟨k, hk, hu⟩ := exec_rest i (s := u) (hsame.tailLen ▸ hrest)
  rw [← restResponse_eq_of_same hsame i] at hu
  exact ⟨_, _, _, hs, hu, ⟨rfl, rfl, rfl, rfl⟩, ⟨rfl, rfl, rfl, rfl⟩, hg.same hk hsame⟩

/-- Settles O36: what the command leaves of a digest that stands for a stream, which is at rest. -/
theorem digestFollowsStream : Obligations.DigestFollowsStream := by
  intro i s stream _ hstream
  obtain ⟨g, hg, hexec⟩ := exec_rest i hstream.tailLen_le
  exact ⟨_, hexec, hg.represents hstream⟩

/-! ## Sequences of WRITEs -/

/-- A command that is a WRITE, taken apart. -/
theorem exists_write_of_isWrite {i : Instr} (h : isWrite i = true) : ∃ n data, i = .write n data := by
  cases i with
  | write n data => exact ⟨n, data, rfl⟩
  | init seed => cases h
  | sum128 => cases h
  | sum => cases h
  | size => cases h

/-- WRITEs one after another, from a state at rest, are one write of all their data, and keep the status registers. -/
theorem execList_writes {ws : List Instr} {s : State} (hws : ∀ i ∈ ws, isWrite i = true) (hrest : s.digest.tailLen.toNat ≤ 15) :
    ∃ t, execList ws s = .next t ∧ StatusKept s t ∧ Wrote s.digest (writtenBytes ws) t.digest := by
  induction ws generalizing s with
  | nil => exact ⟨s, rfl, ⟨rfl, rfl, rfl⟩, .refl hrest⟩
  | cons w ws ih =>
    obtain ⟨hw, hrem⟩ := List.forall_mem_cons.mp hws
    obtain ⟨n, data, rfl⟩ := exists_write_of_isWrite hw
    obtain ⟨k, hk, hexec⟩ := execWrite_rest n data s hrest
    obtain ⟨t, ht, ⟨hstatus, hfcmd, hfree⟩, hwrote⟩ := ih (s := respond ackResponse { s with digest := k }) hrem hk.tailLen_le
    exact ⟨t, execList_cons.mpr ⟨_, hexec, ht⟩, ⟨hstatus, hfcmd, hfree⟩, hk.trans hwrote⟩

/-- Settles O37: both sequences are one write of the same data to the same digest. -/
theorem chunkingDoesNotMatter : Obligations.ChunkingDoesNotMatter := by
  intro ws vs s hws hvs hrest hdata
  obtain ⟨t, ht, -, hwt⟩ := execList_writes hws hrest
  obtain ⟨u, hu, -, hwu⟩ := execList_writes hvs hrest
  rw [← hdata] at hwu
  have hsame := hwt.same hwu (.refl s.digest)
  exact ⟨t, u, ht, hu, hsame, finalize_eq_of_same hsame⟩

/-- WRITEs on a digest that stands for a stream lead to one that stands for the stream with their data after it. -/
theorem execList_writes_represents {ws : List Instr} {s : State} {stream : List Byte} (hws : ∀ i ∈ ws, isWrite i = true)
    (hs : s.digest.Represents stream) :
    ∃ t, execList ws s = .next t ∧ StatusKept s t ∧ t.digest.Represents (stream ++ writtenBytes ws) ∧
      t.digest.seed = s.digest.seed := by
  obtain ⟨t, ht, hstatus, hwrote⟩ := execList_writes hws hs.tailLen_le
  exact ⟨t, ht, hstatus, hwrote.represents hs, hwrote.seed⟩

/-- INIT and then WRITEs lead to a digest that stands for their data under INIT's seed. -/
theorem execList_init_writes {ws : List Instr} (seed : BitVec 32) (s : State) (hws : ∀ i ∈ ws, isWrite i = true) :
    ∃ t, execList (.init seed :: ws) s = .next t ∧ StatusKept s t ∧ t.digest.Represents (writtenBytes ws) ∧
      t.digest.seed = seed := by
  obtain ⟨t, ht, ⟨hstatus, hfcmd, hfree⟩, hrep, hseed⟩ := execList_writes_represents
    (s := respond ackResponse { s with digest := initDigest seed s.digest }) hws (initDigest_represents seed s.digest)
  exact ⟨t, execList_cons.mpr ⟨_, exec_init seed s, ht⟩, ⟨hstatus, hfcmd, hfree⟩, hrep, hseed.trans (initDigest_seed ..)⟩

/-- Settles O38: finalization of a digest that stands for a stream is the stream's hash. -/
theorem engineComputesMurmur3 : Obligations.EngineComputesMurmur3 := by
  intro seed ws s hws
  obtain ⟨t, ht, hstatus, hrep, hseed⟩ := execList_init_writes seed s hws
  exact ⟨t, ht, hstatus, hrep, hseed, by rw [hrep.finalize, hseed]⟩

/-- Settles O40: each copy starts from the digest of the common bytes, and goes on from it by itself. -/
theorem forksAreIndependent : Obligations.ForksAreIndependent := by
  intro seed ps xs ys s a hps hxs hys ha
  obtain ⟨t, ht, -, hrep, rfl⟩ := execList_init_writes seed s hps
  cases ht.symm.trans ha
  obtain ⟨b, hb, -, hrepb, hseedb⟩ := execList_writes_represents hxs hrep
  obtain ⟨c, hc, -, hrepc, hseedc⟩ := execList_writes_represents hys hrep
  exact ⟨hrep.finalize, b, c, hb, hc, by rw [hrepb.finalize, hseedb], by rw [hrepc.finalize, hseedc]⟩

end Sys2Proof.Machine

/-! What every step does and keeps: its one response (10_state.md R29; 70_reset_and_hazards.md R179), reset between runs (R170), who
writes the seed and the accumulators (10_state.md R22, R23), and the invariant. -/

namespace Sys2Proof.Machine

/-! ## Steps between runs -/

/-- With no command waiting a step is the host's turn. -/
theorem step_of_fetch_none {s : State} (h : fetch s = none) : step s = .next (betweenRuns s) := by
  simp [step, h]

/-- A host with no further run leaves the engine idle (R28). -/
theorem betweenRuns_of_nil {s : State} (h : s.nextRuns = []) : betweenRuns s = s := by
  simp [betweenRuns, h]

/-- A host with a further run resets the engine and loads the run (R170). -/
theorem betweenRuns_of_cons {s : State} {p : List Command} {rest : List (List Command)} (h : s.nextRuns = p :: rest) :
    betweenRuns s = { engineReset s with prog := p, nextRuns := rest } := by
  simp [betweenRuns, h]

/-- Settles O45: the values of reset, and the run loaded. -/
theorem resetTakenBetweenRuns : Obligations.ResetTakenBetweenRuns := by
  intro s p rest hnone hruns
  refine ⟨_, step_of_fetch_none hnone, ?_⟩
  rw [betweenRuns_of_cons hruns]
  exact ⟨rfl, rfl, rfl, rfl, rfl, rfl, rfl, rfl, rfl, rfl, rfl⟩

/-- Settles O6: `step_of_decode_ok`, by the order of a step's checks. -/
theorem stepRunsDecodedCommand : Obligations.StepRunsDecodedCommand :=
  fun _ _ _ hc hf hd => step_of_decode_ok hf hc hd

/-! ## One response per command -/

/-- A command that is answered without ERR and keeps STATUS, out of the fault state. -/
theorem respond_answers {r : Response} {s : State} (g : Digest) (hr : r.kind ≠ .err) (hf : s.faulted = false) :
    Answered s (respond r { s with digest := g }) r ∧
      (r.kind = .err ↔ (respond r { s with digest := g }).faulted = true) :=
  ⟨⟨rfl, rfl, rfl, rfl⟩, iff_of_false hr (ne_true_of_eq_false hf)⟩

/-- Fault entry is answered with ERR. -/
theorem raiseFault_answers (f : FaultCause) (cmd : BitVec 64) (s : State) :
    ∃ r, Answered s (raiseFault f cmd s) r ∧ (r.kind = .err ↔ (raiseFault f cmd s).faulted = true) :=
  ⟨_, raiseFault_answered f cmd s, iff_of_true rfl (statusFault_statusWithFault f s.status)⟩

/-- An accepted command is answered once, with ERR exactly when it has entered a fault. -/
theorem exec_answered {i : Instr} {s t : State} (hf : s.faulted = false) (h : exec i s = .next t) :
    ∃ r, Answered s t r ∧ (r.kind = .err ↔ t.faulted = true) := by
  cases i with
  | init seed => cases h; exact ⟨_, respond_answers _ nofun hf⟩
  | write n data =>
    change execWrite n data s = .next t at h
    rcases execWrite_cases n data s with ⟨k, -, hk⟩ | ⟨f, -, hlost⟩
    · cases hk.symm.trans h; exact ⟨_, respond_answers k nofun hf⟩
    · cases hlost.symm.trans h
      obtain ⟨r, ⟨hresp, hpc, hprog, hruns⟩, herr⟩ := raiseFault_answers f (encode (.write n data)).cmd (loseDigest s)
      exact ⟨r, ⟨hresp, hpc, hprog, hruns⟩, herr⟩
  | sum128 => cases h; exact ⟨_, respond_answers s.digest nofun hf⟩
  | sum => cases h; exact ⟨_, respond_answers s.digest nofun hf⟩
  | size => cases h; exact ⟨_, respond_answers s.digest nofun hf⟩

/-- A waiting command is answered once, with ERR exactly when the engine is then faulted (R29, R66). -/
theorem step_answered {s t : State} {c : Command} (hc : fetch s = some c) (h : step s = .next t) :
    ∃ r, Answered s t r ∧ (r.kind = .err ↔ t.faulted = true) := by
  rcases step_cases s with ⟨hnone, -⟩ | ⟨c', -, ⟨hf, hstep⟩ | ⟨-, -, hstep⟩ | ⟨hok, i, -, hstep⟩⟩
  · cases hnone.symm.trans hc
  · cases hstep.symm.trans h
    exact ⟨errResponse s, ⟨rfl, rfl, rfl, rfl⟩, iff_of_true rfl hf⟩
  · cases hstep.symm.trans h
    exact raiseFault_answers _ _ s
  · exact exec_answered hok (hstep.symm.trans h)

/-- Settles O7: the index after reset, the one response of a waiting command, and the idle step. -/
theorem everyCommandAnswersOnce : Obligations.EveryCommandAnswersOnce := by
  refine ⟨rfl, fun s c hc => ?_, fun s hnone hruns => ?_⟩
  · obtain ⟨t, ht⟩ := step_answers s
    obtain ⟨r, hr, herr⟩ := step_answered hc ht
    exact ⟨t, r, ht, hr, herr⟩
  · rw [step_of_fetch_none hnone, betweenRuns_of_nil hruns]

/-! ## Steps from a state at rest -/

/-- Everything a step can do from a state at rest, where no WRITE fails. -/
theorem step_rest_cases {s t : State} (hrest : s.digest.tailLen.toNat ≤ 15) (h : step s = .next t) :
    (fetch s = none ∧ t = betweenRuns s) ∨
    (∃ c, fetch s = some c ∧
      ((s.faulted = true ∧ t = refuse s) ∨
       (s.faulted = false ∧ t = raiseFault .illegalCommand c.cmd s) ∨
       (s.faulted = false ∧ ∃ i g, decode c = .ok i ∧ DigestAfter s.digest g i ∧
          t = respond (restResponse s.digest i) { s with digest := g }))) := by
  rcases step_cases s with ⟨hnone, hstep⟩ | ⟨c, hc, ⟨hf, hstep⟩ | ⟨hok, -, hstep⟩ | ⟨hok, i, hi, hstep⟩⟩
  · cases hstep.symm.trans h; exact .inl ⟨hnone, rfl⟩
  · cases hstep.symm.trans h; exact .inr ⟨c, hc, .inl ⟨hf, rfl⟩⟩
  · cases hstep.symm.trans h; exact .inr ⟨c, hc, .inr (.inl ⟨hok, rfl⟩)⟩
  · obtain ⟨g, hg, hexec⟩ := exec_rest i hrest
    cases (hstep.trans hexec).symm.trans h
    exact .inr ⟨c, hc, .inr (.inr ⟨hok, i, g, hi, hg, rfl⟩)⟩

/-- A command leaves a digest at rest at rest (R25). -/
theorem DigestAfter.tailLen_le {g k : Digest} {i : Instr} (h : DigestAfter g k i) (hrest : g.tailLen.toNat ≤ 15) :
    k.tailLen.toNat ≤ 15 := by
  cases i with
  | init seed => cases h; rw [initDigest_tailLen]; decide
  | write n data => exact Wrote.tailLen_le h
  | sum128 => cases h; exact hrest
  | sum => cases h; exact hrest
  | size => cases h; exact hrest

/-- What every step keeps holds after any number of steps. -/
theorem steps_keep {P : State → Prop} (hstep : ∀ s t, P s → step s = .next t → P t) {k : Nat} {s t : State} (hs : P s)
    (h : steps k s = .next t) : P t := by
  induction k generalizing s with
  | zero => cases h; exact hs
  | succ k ih =>
    obtain ⟨m, hm⟩ := step_answers s
    simp only [steps, hm] at h
    exact ih (hstep s m hs hm) h

/-- The engine is at rest and shows no BLOCK_PRECONDITION. -/
def State.NoBlockFault (s : State) : Prop := s.digest.tailLen.toNat ≤ 15 ∧ statusCause s.status ≠ 2

/-- A step from a state at rest raises no BLOCK_PRECONDITION and leads to a state at rest (60_exceptions.md R158). -/
theorem step_noBlockFault {s t : State} (hs : s.NoBlockFault) (h : step s = .next t) : t.NoBlockFault := by
  obtain ⟨hrest, hcause⟩ := hs
  rcases step_rest_cases hrest h with ⟨-, rfl⟩ | ⟨c, -, ⟨-, rfl⟩ | ⟨-, rfl⟩ | ⟨-, i, g, -, hg, rfl⟩⟩
  · rcases betweenRuns_cases s with hsame | ⟨p, rest, hreset⟩
    · rw [hsame]; exact ⟨hrest, hcause⟩
    · rw [hreset]; exact ⟨Nat.zero_le 15, (by decide : statusCause 0 ≠ 2)⟩
  · exact ⟨hrest, hcause⟩
  · refine ⟨hrest, ?_⟩
    rw [raiseFault_status, statusCause_statusWithFault]
    decide
  · exact ⟨hg.tailLen_le hrest, hcause⟩

/-- Settles O21: every step keeps it. -/
theorem blockPreconditionUnreachable : Obligations.BlockPreconditionUnreachable :=
  fun _ _ _ hrest hcause h => steps_keep (P := State.NoBlockFault) (fun _ _ hs ht => step_noBlockFault hs ht) ⟨hrest, hcause⟩ h

/-- A write that completes no block leaves the accumulators. -/
theorem Wrote.acc_of_lt {g k : Digest} {d : List Byte} (h : Wrote g d k) (hlt : g.tailLen.toNat + d.length < 16) :
    k.h1 = g.h1 ∧ k.h2 = g.h2 := by
  have hlen : (g.pending ++ d).length < 16 := by rw [List.length_append, length_pending g (by omega)]; exact hlt
  have hacc := h.acc
  rw [streamBlocks_of_length_lt hlen, foldBlocks_nil] at hacc
  exact Prod.mk.inj hacc

/-- Settles O22: of the steps from a state at rest, only the reset, INIT and a WRITE of enough bytes touch those fields. -/
theorem seedAndAccumulatorWriters : Obligations.SeedAndAccumulatorWriters := by
  intro s t hrest h hchange
  rcases step_rest_cases hrest h with ⟨hnone, rfl⟩ | ⟨c, hc, ⟨-, rfl⟩ | ⟨-, rfl⟩ | ⟨hok, i, g, hi, hg, rfl⟩⟩
  · refine .inl ⟨hnone, fun hruns => ?_⟩
    rw [betweenRuns_of_nil hruns] at hchange
    simp at hchange
  · simp at hchange
  · simp at hchange
  · refine .inr ⟨hok, c, hc, ?_⟩
    rw [respond_digest] at hchange ⊢
    cases i with
    | init seed => exact .inl ⟨seed, hi⟩
    | write n data =>
      have hwrote : Wrote s.digest (beatBytes n.toNat data) g := hg
      refine .inr ⟨n, data, hi, not_lt.mp fun hlt => ?_, hwrote.seed⟩
      obtain ⟨hh1, hh2⟩ := hwrote.acc_of_lt (by rw [length_beatBytes]; exact hlt)
      simp [hwrote.seed, hh1, hh2] at hchange
    | sum128 => cases hg; simp at hchange
    | sum => cases hg; simp at hchange
    | size => cases hg; simp at hchange

/-! ## The invariant -/

/-- A command keeps `tailLen` the length modulo 16 (R27). -/
theorem DigestAfter.tailLen_eq_mod {g k : Digest} {i : Instr} (h : DigestAfter g k i)
    (hmod : g.tailLen.toNat = g.totalLen.toNat % 16) : k.tailLen.toNat = k.totalLen.toNat % 16 := by
  cases i with
  | init seed => cases h; rw [initDigest_tailLen, initDigest_totalLen]; rfl
  | write n data =>
    have hwrote : Wrote g (beatBytes n.toNat data) k := h
    rw [hwrote.tailLen, hwrote.totalLen, length_beatBytes, BitVec.toNat_add, BitVec.toNat_ofNat]
    omega
  | sum128 => cases h; exact hmod
  | sum => cases h; exact hmod
  | size => cases h; exact hmod

/-- Reset gives the invariant, whatever run the host then has. -/
theorem inv_engineReset (s : State) (p : List Command) (rest : List (List Command)) :
    State.Inv { engineReset s with prog := p, nextRuns := rest } where
  tailRest := Nat.zero_le 15
  tailMod := rfl
  status := .inl rfl
  fcmd _ := rfl
  pc := Nat.zero_le _
  answered := rfl

/-- Without a fault, STATUS is 0. -/
theorem State.Inv.status_of_not_faulted {s : State} (hs : s.Inv) (hf : s.faulted = false) : s.status = 0 := by
  refine hs.status.resolve_right fun h3 => ?_
  rw [State.faulted, h3] at hf
  cases hf

/-- A waiting command that is answered once, and whose engine keeps its part of the invariant, keeps all of it. -/
theorem State.Inv.of_answered {s t : State} {c : Command} {r : Response} (hs : s.Inv) (hc : fetch s = some c)
    (ha : Answered s t r) (hrest : t.digest.tailLen.toNat ≤ 15)
    (hmod : t.digest.tailLen.toNat = t.digest.totalLen.toNat % 16) (hstatus : t.status = 0 ∨ t.status = 3)
    (hfcmd : t.status = 0 → t.fcmd = 0) : t.Inv where
  tailRest := hrest
  tailMod := hmod
  status := hstatus
  fcmd := hfcmd
  pc := by
    obtain ⟨hlt, -⟩ := List.getElem?_eq_some_iff.mp hc
    rw [ha.pc, ha.prog]
    exact hlt
  answered := by rw [ha.responses, ha.pc, List.length_append, hs.answered]; rfl

/-- Every step keeps the invariant. -/
theorem State.Inv.step {s t : State} (hs : s.Inv) (h : Machine.step s = .next t) : t.Inv := by
  rcases step_rest_cases hs.tailRest h with ⟨-, rfl⟩ | ⟨c, hc, hcases⟩
  · rcases betweenRuns_cases s with hsame | ⟨p, rest, hreset⟩
    · rw [hsame]; exact hs
    · rw [hreset]; exact inv_engineReset s p rest
  · obtain ⟨r, ha, -⟩ := step_answered hc h
    rcases hcases with ⟨-, rfl⟩ | ⟨hok, rfl⟩ | ⟨-, i, g, -, hg, rfl⟩
    · exact hs.of_answered hc ha hs.tailRest hs.tailMod hs.status hs.fcmd
    · have h3 : statusWithFault .illegalCommand s.status = 3 := by rw [hs.status_of_not_faulted hok]; rfl
      exact hs.of_answered hc ha hs.tailRest hs.tailMod (.inr h3) fun h0 => absurd (h3.symm.trans h0) (by decide)
    · exact hs.of_answered hc ha (hg.tailLen_le hs.tailRest) (hg.tailLen_eq_mod hs.tailMod) hs.status hs.fcmd

/-- Settles O47: `State.Inv.step`, by what a step from a state at rest can do. -/
theorem everyStepKeepsInvariant : Obligations.EveryStepKeepsInvariant := fun _ _ hs h => hs.step h

/-- The digest after reset stands for the empty stream. -/
theorem reset_represents_nil (k : Nat) : (Digest.reset k).Represents [] where
  acc := by rw [streamHash, streamBlocks_of_length_lt (by decide), foldBlocks_nil]; rfl
  tailLen := rfl
  totalLen := rfl
  pending := pending_of_tailLen_zero _ rfl

/-- Settles O46, field by field. -/
theorem invariantHoldsAtReset : Obligations.InvariantHoldsAtReset :=
  ⟨⟨Nat.zero_le 15, rfl, .inl rfl, fun _ => rfl, Nat.zero_le _, rfl⟩, reset_represents_nil 0⟩

end Sys2Proof.Machine

/-! The host's pseudo-commands as programs (43_convenience.md): the WRITEs of WRITESTR (R142), a run of encoded commands, and
HASH128 (R141). -/

namespace Sys2Proof.Machine

/-! ## WRITESTR -/

@[simp] theorem length_pieces (k : Nat) (d : List Byte) : (pieces k d).length = k := by
  induction k generalizing d with
  | zero => rfl
  | succ k ih => rw [pieces, List.length_cons, ih]

/-- Piece `i` is the bytes from `16*i` on, at most 16 of them. -/
theorem getElem?_pieces {k i : Nat} (hi : i < k) (d : List Byte) : (pieces k d)[i]? = some ((d.drop (16 * i)).take 16) := by
  induction k generalizing i d with
  | zero => exact absurd hi (Nat.not_lt_zero i)
  | succ k ih =>
    rw [pieces]
    cases i with
    | zero => simp
    | succ i =>
      rw [List.getElem?_cons_succ, ih (Nat.lt_of_succ_lt_succ hi), List.drop_drop, Nat.mul_succ, Nat.add_comm 16]

/-- Every piece fits one WRITE. -/
theorem length_le_of_mem_pieces {k : Nat} {d b : List Byte} (hb : b ∈ pieces k d) : b.length ≤ 16 := by
  induction k generalizing d with
  | zero => cases hb
  | succ k ih =>
    rw [pieces] at hb
    rcases List.mem_cons.mp hb with rfl | hb
    · exact List.length_take_le 16 d
    · exact ih hb

/-- The pieces one after another are the bytes they were cut from. -/
theorem flatten_pieces (k : Nat) (d : List Byte) : (pieces k d).flatten = d.take (16 * k) := by
  induction k generalizing d with
  | zero => simp [pieces]
  | succ k ih => rw [pieces, List.flatten_cons, ih, Nat.mul_succ, Nat.add_comm, List.take_add]

/-- The count of a WRITE of at most 16 bytes is their number. -/
theorem toNat_count {b : List Byte} (hb : b.length ≤ 16) : (BitVec.ofNat 5 b.length).toNat = b.length := by
  rw [BitVec.toNat_ofNat, Nat.mod_eq_of_lt (by omega)]

theorem isWrite_writeInstr {b : List Byte} (hb : b.length ≤ 16) : isWrite (writeInstr b) = true := by
  rw [writeInstr, isWrite, toNat_count hb]
  exact decide_eq_true hb

/-- The WRITE of at most 16 bytes carries those bytes. -/
theorem dataBytes_writeInstr {b : List Byte} (hb : b.length ≤ 16) : dataBytes (writeInstr b) = b := by
  rw [writeInstr, dataBytes, toNat_count hb, beatBytes_packLanes b hb]

/-- The pieces that WRITESTR writes: one of no bytes where there is no data. -/
theorem exists_writeStr_pieces (data : List Byte) :
    ∃ bs : List (List Byte), writeStrInstrs data = bs.map writeInstr ∧ (∀ b ∈ bs, b.length ≤ 16) ∧ bs.flatten = data := by
  unfold writeStrInstrs
  split
  next hnil => exact ⟨[[]], rfl, by simp, by simp [hnil]⟩
  next hne =>
    refine ⟨_, rfl, fun b hb => length_le_of_mem_pieces hb, ?_⟩
    rw [flatten_pieces, List.take_of_length_le (by simp only [Config.nMax]; omega)]

theorem isWrite_of_mem_writeStrInstrs {data : List Byte} {i : Instr} (hi : i ∈ writeStrInstrs data) : isWrite i = true := by
  obtain ⟨bs, hbs, hlen, -⟩ := exists_writeStr_pieces data
  rw [hbs] at hi
  obtain ⟨b, hb, rfl⟩ := List.mem_map.mp hi
  exact isWrite_writeInstr (hlen b hb)

/-- WRITESTR writes its data. -/
theorem writtenBytes_writeStrInstrs (data : List Byte) : writtenBytes (writeStrInstrs data) = data := by
  obtain ⟨bs, hbs, hlen, hdata⟩ := exists_writeStr_pieces data
  have hmap : (bs.map writeInstr).map dataBytes = bs := by
    rw [List.map_map]
    exact (List.map_congr_left fun b hb => dataBytes_writeInstr (hlen b hb)).trans (List.map_id bs)
  rw [writtenBytes, List.flatMap_def, hbs, hmap, hdata]

/-- Settles O41: the pieces of the data by number, and what their WRITEs carry. -/
theorem writeStrSplitsData : Obligations.WriteStrSplitsData := by
  intro data
  refine ⟨rfl, fun hnil => ?_, fun hne => ?_, fun i hi => isWrite_of_mem_writeStrInstrs hi, writtenBytes_writeStrInstrs data⟩
  · rw [writeStrInstrs, if_pos hnil]
    rfl
  · rw [writeStrInstrs, if_neg hne]
    refine ⟨by simp, fun i hi => ?_⟩
    rw [List.getElem?_map, getElem?_pieces hi, Option.map_some, Option.map_some, dataBytes_writeInstr (List.length_take_le ..)]

/-! ## A run of encoded commands -/

theorem execList_append {is js : List Instr} {s u : State} :
    execList (is ++ js) s = .next u ↔ ∃ m, execList is s = .next m ∧ execList js m = .next u := by
  induction is generalizing s with
  | nil => simp [execList]
  | cons i is ih =>
    simp only [List.cons_append, execList_cons, ih]
    constructor
    · rintro ⟨n, hn, m, hm, hu⟩; exact ⟨m, ⟨n, hn, hm⟩, hu⟩
    · rintro ⟨m, ⟨n, hn, hm⟩, hu⟩; exact ⟨n, hn, m, hm, hu⟩

/-- Commands do not clear a fault: only reset does (60_exceptions.md R157). -/
theorem exec_keeps_fault {i : Instr} {s t : State} (h : exec i s = .next t) (hf : s.faulted = true) : t.faulted = true := by
  rcases exec_status_cases h with hkept | ⟨f, hst, -⟩
  · rw [State.faulted, hkept.status]; exact hf
  · rw [State.faulted, hst]; exact statusFault_statusWithFault f s.status

theorem execList_keeps_fault {is : List Instr} {s t : State} (h : execList is s = .next t) (hf : s.faulted = true) :
    t.faulted = true := by
  induction is generalizing s with
  | nil => cases h; exact hf
  | cons i is ih =>
    obtain ⟨m, hm, h⟩ := execList_cons.mp h
    exact ih h (exec_keeps_fault hm hf)

/-- Commands that end without a fault began without one. -/
theorem not_faulted_of_execList {is : List Instr} {s t : State} (h : execList is s = .next t) (hok : t.faulted = false) :
    s.faulted = false :=
  Bool.eq_false_of_not_eq_true fun hf => Bool.false_ne_true (hok.symm.trans (execList_keeps_fault h hf))

/-- A program of the words of well-formed commands, which end without a fault, runs to its end in as many steps and to the state
that the commands lead to. -/
theorem steps_encoded {is : List Instr} {s t : State} (hwf : ∀ i ∈ is, i.wf = true)
    (hprog : s.prog.drop s.pc = is.map encode) (h : execList is s = .next t) (hok : t.faulted = false) :
    steps is.length s = .next t ∧ t.prog = s.prog ∧ t.pc = s.pc + is.length := by
  induction is generalizing s with
  | nil => cases h; exact ⟨rfl, rfl, rfl⟩
  | cons i is ih =>
    obtain ⟨hi, hwf⟩ := List.forall_mem_cons.mp hwf
    have hs := not_faulted_of_execList h hok
    obtain ⟨m, hm, h⟩ := execList_cons.mp h
    obtain ⟨r, ha, -⟩ := exec_answered hs hm
    have hfetch : fetch s = some (encode i) := by
      rw [fetch, ← List.head?_drop, hprog]
      rfl
    have hstep : step s = .next m := (step_of_decode_ok hs hfetch (decode_encode hi)).trans hm
    have hrest : m.prog.drop m.pc = is.map encode := by
      rw [ha.prog, ha.pc, ← List.tail_drop, hprog]
      rfl
    obtain ⟨hsteps, hprog', hpc⟩ := ih hwf hrest h
    refine ⟨?_, hprog'.trans ha.prog, ?_⟩
    · simp only [List.length_cons, steps, hstep, hsteps]
    · rw [hpc, ha.pc, List.length_cons]; omega

/-! ## HASH128 -/

theorem wf_of_isWrite {i : Instr} (h : isWrite i = true) : i.wf = true := by
  obtain ⟨n, data, rfl⟩ := exists_write_of_isWrite h
  exact h

theorem wf_of_mem_hash128Instrs {data : List Byte} {seed : BitVec 32} {i : Instr} (hi : i ∈ hash128Instrs data seed) :
    i.wf = true := by
  rw [hash128Instrs, List.mem_cons, List.mem_append, List.mem_singleton] at hi
  rcases hi with rfl | hi | rfl
  · rfl
  · exact wf_of_isWrite (isWrite_of_mem_writeStrInstrs hi)
  · rfl

/-- The commands of HASH128 keep the status registers, and the last answers the hash (R141). -/
theorem execList_hash128Instrs (data : List Byte) (seed : BitVec 32) (s : State) :
    ∃ t, execList (hash128Instrs data seed) s = .next t ∧ StatusKept s t ∧
      t.responses.getLast? = some ⟨.value, sum128Value (murmur3 seed data)⟩ := by
  obtain ⟨m, hm, hkept, hrep, hseed⟩ :=
    execList_init_writes seed s fun i hi => isWrite_of_mem_writeStrInstrs (data := data) hi
  rw [writtenBytes_writeStrInstrs] at hrep
  have hlast : execList [.sum128] m = .next (respond (valueResponse (sum128Value (finalize m.digest))) m) := rfl
  refine ⟨_, execList_append.mpr ⟨m, hm, hlast⟩, ⟨hkept.status, hkept.fcmd, hkept.freeCount⟩, ?_⟩
  rw [respond_responses, List.getLast?_concat, hrep.finalize, hseed, valueResponse]

/-- Settles O42: the program is the words of HASH128's commands, so its run is theirs. -/
theorem hashProgramReturnsHash : Obligations.HashProgramReturnsHash := by
  intro data seed s hf hpc hprog
  have hwords : s.prog = (hash128Instrs data seed).map encode := (Option.some.inj hprog).symm
  refine ⟨rfl, ?_⟩
  obtain ⟨t, ht, hkept, hlast⟩ := execList_hash128Instrs data seed s
  have hok : t.faulted = false := by rw [State.faulted, hkept.status]; exact hf
  obtain ⟨hsteps, hprog', hpc'⟩ :=
    steps_encoded (fun i hi => wf_of_mem_hash128Instrs hi) (by rw [hpc, List.drop_zero, hwords]) ht hok
  have hlen : s.prog.length = (hash128Instrs data seed).length := by rw [hwords, List.length_map]
  refine ⟨t, by rw [hlen, hsteps], ⟨?_, hok⟩, hlast⟩
  rw [State.ended, hpc', hprog', hpc, Nat.zero_add, hlen]

end Sys2Proof.Machine

/-! The tail buffer under its primitives (20_memory.md R41) and under WRITE (40_writer.md R82, R85), what a WRITE leaves in numbers
(R81 to R87), and the WRITE that fails its check (60_exceptions.md R152). -/

namespace Sys2Proof.Machine

/-! ## The primitives -/

/-- After a write inside the buffer, its offsets hold the bytes written and every other offset what it held. -/
theorem getElem?_memWrite (tail : Vector Byte 16) {off : Nat} {d : List Byte} (h : off + d.length ≤ 16) (o : Nat) :
    (memWrite tail off d)[o]? = if off ≤ o ∧ o < off + d.length then d[o - off]? else tail[o]? := by
  by_cases ho : o < 16
  · rw [Vector.getElem?_eq_getElem ho, getElem_memWrite _ _ _ _ ho, Vector.getElem?_eq_getElem ho]
    split
    next hin => rw [List.getElem?_eq_getElem (by omega), List.getD_eq_getElem _ _ (by omega)]
    next hout => rfl
  · rw [if_neg (by omega), Vector.getElem?_eq_none (by omega), Vector.getElem?_eq_none (by omega)]

/-- The bytes written are read back. -/
theorem memRead_memWrite_same (tail : Vector Byte 16) {off : Nat} {d : List Byte} (h : off + d.length ≤ 16) :
    memRead (memWrite tail off d) off d.length = d := by
  apply List.ext_getElem?
  intro i
  rw [getElem?_memRead, getElem?_memWrite tail h]
  by_cases hi : i < d.length
  · rw [if_pos hi, if_pos (by omega), Nat.add_sub_cancel_left]
  · rw [if_neg hi, List.getElem?_eq_none (by omega)]

/-- Settles O16: `getElem?_memWrite` inside and outside the place written, and the bytes of a read. -/
theorem tailReadsBackWhatWasWritten : Obligations.TailReadsBackWhatWasWritten := by
  intro tail off d h
  refine ⟨memRead_memWrite_same tail h, fun o _ hout => ?_, fun n hn => ⟨length_memRead tail off n hn, fun j hj => ?_⟩⟩
  · rw [getElem?_memWrite tail h, if_neg (by omega)]
  · rw [getElem?_memRead, if_pos hj]

/-! ## What WRITE leaves of the stream -/

/-- A block and less than another: one block. -/
theorem streamBlocks_of_one_block {d : List Byte} (hlo : 16 ≤ d.length) (hhi : d.length < 32) : streamBlocks d = [d.take 16] := by
  rw [streamBlocks, show d.length / 16 = 0 + 1 by omega, pieces, pieces]

/-- A block and less than another: what comes after the one block. -/
theorem streamTail_of_one_block {d : List Byte} (hlo : 16 ≤ d.length) (hhi : d.length < 32) : streamTail d = d.drop 16 := by
  rw [streamTail, show d.length / 16 = 1 by omega]

/-- A write that completes no block leaves its data pending after what was. -/
theorem Wrote.pending_of_lt {g k : Digest} {d : List Byte} (h : Wrote g d k) (hlt : g.tailLen.toNat + d.length < 16) :
    k.pending = g.pending ++ d := by
  have hlen : (g.pending ++ d).length < 16 := by rw [List.length_append, length_pending g (by omega)]; exact hlt
  rw [h.pending, streamTail_of_length_lt hlen]

/-- A write of at most 16 bytes that completes a block completes one: it goes through BM, and the rest is pending. -/
theorem Wrote.of_block {g k : Digest} {d : List Byte} (h : Wrote g d k) (hrest : g.tailLen.toNat ≤ 15) (hd : d.length ≤ 16)
    (hge : 16 ≤ g.tailLen.toNat + d.length) :
    (k.h1, k.h2) = bm g.h1 g.h2 ((g.pending ++ d).take 16) ∧ k.pending = (g.pending ++ d).drop 16 := by
  have hlen : (g.pending ++ d).length = g.tailLen.toNat + d.length := by rw [List.length_append, length_pending g (by omega)]
  have hlo : 16 ≤ (g.pending ++ d).length := by omega
  have hhi : (g.pending ++ d).length < 32 := by omega
  refine ⟨?_, by rw [h.pending, streamTail_of_one_block hlo hhi]⟩
  rw [h.acc, streamBlocks_of_one_block hlo hhi, foldBlocks_cons, foldBlocks_nil]

@[simp] theorem addLength_zero (g : Digest) : addLength 0 g = g := by
  simp only [addLength, BitVec.add_zero]

@[simp] theorem tailAppend_nil (g : Digest) : tailAppend [] g = g := by
  simp only [tailAppend, memWrite_nil, List.length_nil, Nat.add_zero, BitVec.ofNat_toNat, BitVec.setWidth_eq]

/-- WRITE of nothing past an empty tail empties the tail again. -/
theorem writeDirect_nil {g : Digest} (h : g.tailLen.toNat = 0) : writeDirect [] g = g := by
  have hz : g.tailLen = BitVec.ofNat 5 0 := BitVec.eq_of_toNat_eq h
  simp only [writeDirect, List.length_nil, Nat.zero_div, pieces, mixBlocks, List.foldl_nil, List.drop_nil, storeRemainder,
    memWrite_nil, ← hz]

/-- WRITE of nothing changes nothing (R87). -/
theorem writeDigest_nil {g : Digest} (hrest : g.tailLen.toNat ≤ 15) : writeDigest [] g = .ok g := by
  rw [writeDigest, List.length_nil, addLength_zero, writeBytes]
  have hnotfull : ¬ g.tailLen = 16 := fun h => by rw [h] at hrest; exact absurd hrest (by decide)
  split
  · rw [if_pos (by simp), fillTail, tailAppend_nil, if_neg hnotfull]
  next hz => rw [writeDirect_nil (Nat.eq_zero_of_not_pos hz)]

/-- WRITE where the digest takes its data. -/
theorem execWrite_of_ok {n : BitVec 5} {data : BitVec 128} {s : State} {k : Digest}
    (h : writeDigest (beatBytes n.toNat data) s.digest = .ok k) :
    execWrite n data s = .next (respond ackResponse { s with digest := k }) := by
  rw [execWrite, h]

/-- Settles O17: the digest of `writeDigest_spec`, in numbers. -/
theorem writeAppendsItsBytes : Obligations.WriteAppendsItsBytes := by
  intro n data s hn hrest
  obtain ⟨k, hk, hwrote⟩ := writeDigest_spec (beatBytes n.toNat data) s.digest hrest
  have hlen : (beatBytes n.toNat data).length = n.toNat := length_beatBytes ..
  refine ⟨_, execWrite_of_ok hk, ⟨rfl, rfl, rfl, rfl⟩, ⟨rfl, rfl, rfl⟩, ?_⟩
  rw [respond_digest]
  refine ⟨hwrote.seed, by rw [hwrote.tailLen, hlen], ?_, fun hlt => ?_, fun hge => ?_, ?_⟩
  · rw [hwrote.totalLen, hlen, BitVec.toNat_add, BitVec.toNat_ofNat, Nat.add_mod_mod]
  · obtain ⟨hh1, hh2⟩ := hwrote.acc_of_lt (by rw [hlen]; exact hlt)
    exact ⟨hh1, hh2, hwrote.pending_of_lt (by rw [hlen]; exact hlt)⟩
  · exact hwrote.of_block hrest (by rw [hlen]; exact hn) (by rw [hlen]; exact hge)
  · rintro rfl
    have hnil := writeDigest_nil hrest
    rw [← beatBytes_zero data] at hnil
    cases hk.symm.trans hnil
    rfl

/-! ## Where WRITE stores -/

/-- MixTail stores nothing (R83). -/
theorem tail_of_mixTail_ok {g k : Digest} (h : mixTail g = .ok k) : k.tail = g.tail := by
  rw [mixTail] at h
  split at h
  · cases h
  · cases h; rw [emptyTail_tail, setAcc_tail]

/-- Step 1 stores the data from `tailLen` on (R82). -/
theorem tail_of_fillTail_ok {d : List Byte} {g k : Digest} (h : fillTail d g = .ok k) :
    k.tail = memWrite g.tail g.tailLen.toNat d := by
  rw [fillTail] at h
  split at h
  · rw [tail_of_mixTail_ok h, tailAppend_tail]
  · cases h; exact tailAppend_tail d g

/-- Steps 3 and 4 store the bytes after the last block from offset 0 on (R85). -/
theorem tail_writeDirect (d : List Byte) (g : Digest) : (writeDirect d g).tail = memWrite g.tail 0 (streamTail d) := by
  simp only [writeDirect, mixBlocks_eq, storeRemainder_tail, setAcc_tail, streamTail]

/-- Step 2 and the steps after it store in both places. -/
theorem tail_of_overfillTail_ok {free : Nat} {d : List Byte} {g k : Digest} (h : overfillTail free d g = .ok k) :
    k.tail = memWrite (memWrite g.tail g.tailLen.toNat (d.take free)) 0 (streamTail (d.drop free)) := by
  rw [overfillTail] at h
  split at h
  · cases h
  next mixed hmixed => cases h; rw [tail_writeDirect, tail_of_mixTail_ok hmixed, tailAppend_tail]

/-- How many of a WRITE's `n` bytes go before those that StoreRemainder stores, with `tailLen` pending: those that complete or
extend a nonempty tail, or those of a whole block. -/
def usedBytes (tailLen n : Nat) : Nat := if 0 < tailLen then min n (16 - tailLen) else 16 * (n / 16)

/-- Where WRITE stores: the first bytes after the pending ones if there are any, and then the others from offset 0 on. -/
theorem tail_of_writeDigest_ok {d : List Byte} {g k : Digest} (hd : d.length ≤ 16) (hrest : g.tailLen.toNat ≤ 15)
    (h : writeDigest d g = .ok k) :
    k.tail = memWrite
      (if 0 < g.tailLen.toNat then memWrite g.tail g.tailLen.toNat (d.take (usedBytes g.tailLen.toNat d.length)) else g.tail)
      0 (d.drop (usedBytes g.tailLen.toNat d.length)) := by
  rw [writeDigest, writeBytes] at h
  simp only [addLength_tailLen, Config.tailCap] at h
  rw [usedBytes]
  by_cases h0 : 0 < g.tailLen.toNat
  · rw [if_pos h0] at h
    rw [if_pos h0, if_pos h0]
    by_cases hfit : d.length ≤ 16 - g.tailLen.toNat
    · rw [if_pos hfit] at h
      rw [tail_of_fillTail_ok h, Nat.min_eq_left hfit, List.take_length, List.drop_length, memWrite_nil, addLength_tail,
        addLength_tailLen]
    · rw [if_neg hfit] at h
      have hshort : (d.drop (16 - g.tailLen.toNat)).length < 16 := by rw [List.length_drop]; omega
      rw [tail_of_overfillTail_ok h, Nat.min_eq_right (by omega), streamTail_of_length_lt hshort, addLength_tail,
        addLength_tailLen]
  · rw [if_neg h0] at h
    cases h
    rw [if_neg h0, if_neg h0, tail_writeDirect, addLength_tail, streamTail]

theorem usedBytes_le (tailLen n : Nat) : usedBytes tailLen n ≤ n := by
  rw [usedBytes]
  split <;> omega

/-- What completes or extends a tail fits it. -/
theorem add_usedBytes_le {tailLen : Nat} (n : Nat) (hpos : 0 < tailLen) (hrest : tailLen ≤ 15) :
    tailLen + usedBytes tailLen n ≤ 16 := by
  rw [usedBytes, if_pos hpos]
  omega

/-- What goes to offset 0 ends before the bytes that were pending. -/
theorem sub_usedBytes_le {tailLen n : Nat} (hpos : 0 < tailLen) (hn : n ≤ 16) : n - usedBytes tailLen n ≤ tailLen := by
  rw [usedBytes, if_pos hpos]
  omega

/-- The tail after WRITE, offset by offset. -/
theorem tailByte_of_writeDigest_ok {d : List Byte} {g k : Digest} (hd : d.length ≤ 16) (hrest : g.tailLen.toNat ≤ 15)
    (h : writeDigest d g = .ok k) {used : Nat} (hused : used = usedBytes g.tailLen.toNat d.length) (o : Nat) :
    tailByte k o =
      if o < d.length - used then d[used + o]?
      else if 0 < g.tailLen.toNat ∧ g.tailLen.toNat ≤ o ∧ o < g.tailLen.toNat + used then d[o - g.tailLen.toNat]?
      else tailByte g o := by
  have hle : used ≤ d.length := hused ▸ usedBytes_le ..
  rw [tailByte, tail_of_writeDigest_ok hd hrest h, ← hused, getElem?_memWrite _ (by rw [List.length_drop]; omega),
    List.length_drop, List.getElem?_drop]
  simp only [Nat.zero_le, true_and, Nat.zero_add, Nat.sub_zero]
  split
  · rfl
  · by_cases hpos : 0 < g.tailLen.toNat
    · have hfit : g.tailLen.toNat + used ≤ 16 := hused ▸ add_usedBytes_le _ hpos hrest
      have htake : (d.take used).length = used := List.length_take_of_le hle
      rw [if_pos hpos, getElem?_memWrite _ (by rw [htake]; exact hfit), htake]
      simp only [hpos, true_and]
      split
      next hin => rw [List.getElem?_take_of_lt (by omega)]
      next => rfl
    · rw [if_neg hpos, if_neg (fun h => hpos h.1), tailByte]

/-- Settles O18: the tail offset by offset; the two places that are stored to are apart. -/
theorem writeStoresOnlyItsBytes : Obligations.WriteStoresOnlyItsBytes := by
  intro n data s t hn hrest h used hused
  obtain ⟨k, hk, -⟩ := writeDigest_spec (beatBytes n.toNat data) s.digest hrest
  cases (execWrite_of_ok hk).symm.trans h
  have hused' : used = usedBytes s.digest.tailLen.toNat n.toNat := hused
  have hle : used ≤ n.toNat := hused' ▸ usedBytes_le ..
  have htail := tailByte_of_writeDigest_ok (by rw [length_beatBytes]; exact hn) hrest hk (used := used)
    (by rw [length_beatBytes]; exact hused')
  simp only [length_beatBytes] at htail
  rw [respond_digest]
  refine ⟨fun hpos i hi => ?_, fun i hi => ?_, fun o ho hout => ?_⟩
  · have hapart : n.toNat - used ≤ s.digest.tailLen.toNat := hused' ▸ sub_usedBytes_le hpos hn
    rw [htail, if_neg (by omega), if_pos (by omega), Nat.add_sub_cancel_left, getElem?_beatBytes_of_lt data (by omega)]
  · rw [htail, if_pos hi, getElem?_beatBytes_of_lt data (by omega)]
  · rw [htail, if_neg (by omega), if_neg hout]

/-! ## BLOCK_PRECONDITION -/

/-- With `tailLen` over 16 a WRITE of any byte fails the check of R83: it finds no free space, and the tail not at 16. -/
theorem writeDigest_of_tailLen_gt {d : List Byte} {g : Digest} (hd : d ≠ []) (hlen : 16 < g.tailLen.toNat) :
    writeDigest d g = .error .blockPrecondition := by
  have hne : (addLength d.length g).tailLen ≠ 16 := fun h => by
    rw [addLength_tailLen] at h
    rw [h] at hlen
    exact absurd hlen (by decide)
  have hfree : Config.tailCap - (addLength d.length g).tailLen.toNat = 0 := by
    rw [addLength_tailLen]
    exact Nat.sub_eq_zero_of_le hlen.le
  rw [writeDigest, writeBytes, hfree, if_pos (by rw [addLength_tailLen]; omega),
    if_neg (by rw [Nat.le_zero, List.length_eq_zero_iff]; exact hd), overfillTail, List.take_zero, tailAppend_nil,
    mixTail_not_full _ hne]

/-- Settles O20: fault entry on the digest that the fault has lost. -/
theorem blockPreconditionRaises : Obligations.BlockPreconditionRaises := by
  intro n data s hlen hpos _
  have hdata : beatBytes n.toNat data ≠ [] := List.ne_nil_of_length_pos (by rw [length_beatBytes]; exact hpos)
  have hexec : exec (.write n data) s =
      .next (raiseFault .blockPrecondition (encode (.write n data)).cmd (loseDigest s)) := by
    rw [exec, execWrite, writeDigest_of_tailLen_gt hdata hlen]
  obtain ⟨hresp, hpc, hprog, hruns⟩ := raiseFault_answered .blockPrecondition (encode (.write n data)).cmd (loseDigest s)
  exact ⟨_, hexec, statusFault_statusWithFault .., statusCause_statusWithFault .., rfl, hresp, hpc, hprog, hruns⟩

end Sys2Proof.Machine

/-! Words and their bytes (00_scope.md R12; 20_memory.md R43 to R45), the rotations (41_block_mixer.md R103), and finalization and
its two responses (42_finalization.md). -/

namespace Sys2Proof.Machine

/-! ## The bytes of a word -/

/-- Byte `j` of a word: its bits `8*j+7 : 8*j` (R43). -/
def wordByte (x : U64) (j : Nat) : Byte := x.extractLsb' (8 * j) 8

theorem wordByte_zero (j : Nat) : wordByte 0 j = 0 := by simp [wordByte]

theorem wordByte_xor (x y : U64) (j : Nat) : wordByte (x ^^^ y) j = wordByte x j ^^^ wordByte y j := BitVec.extractLsb'_xor

theorem wordByte_and (x y : U64) (j : Nat) : wordByte (x &&& y) j = wordByte x j &&& wordByte y j := BitVec.extractLsb'_and

/-- A word is its eight bytes. -/
theorem word_ext {x y : U64} (h : ∀ j, j < 8 → wordByte x j = wordByte y j) : x = y := by
  apply BitVec.eq_of_getLsbD_eq
  intro i hi
  have hbit := congrArg (BitVec.getLsbD · (i % 8)) (h (i / 8) (by omega))
  simpa [wordByte, show i % 8 < 8 by omega, show 8 * (i / 8) + i % 8 = i by omega] using hbit

/-- A byte shifted to place `k` stands there and nowhere else. -/
theorem wordByte_byte_shiftLeft (b : Byte) (k : Nat) {j : Nat} (hj : j < 8) :
    wordByte (zext64 b <<< (8 * k)) j = if j = k then b else 0 := by
  apply BitVec.eq_of_getLsbD_eq
  intro i hi
  have hbit : 8 * j + i < 64 := by omega
  simp only [wordByte, zext64, BitVec.getLsbD_extractLsb', BitVec.getLsbD_shiftLeft, BitVec.getLsbD_setWidth, hi, hbit]
  obtain hlt | rfl | hgt := Nat.lt_trichotomy j k
  · have hbelow : 8 * j + i < 8 * k := by omega
    simp [hbelow, hlt.ne]
  · have hwide : i < 64 := by omega
    simp [hwide]
  · have habove : 8 ≤ 8 * j + i - 8 * k := by omega
    simp [BitVec.getLsbD_of_ge b _ habove, hgt.ne']

/-- Byte `j` of a partial word is byte `j` of its group, and 0 where the group has none (R44). -/
theorem wordByte_xorBytes (t : List Byte) (first count : Nat) {j : Nat} (hj : j < 8) :
    wordByte (xorBytes t first count) j = if j < count then t.getD (first + j) 0 else 0 := by
  rw [xorBytes]
  induction count with
  | zero => exact wordByte_zero j
  | succ n ih =>
    rw [List.range_succ, List.foldl_append, List.foldl_cons, List.foldl_nil, wordByte_xor, ih, wordByte_byte_shiftLeft _ _ hj]
    obtain hlt | rfl | hgt := Nat.lt_trichotomy j n
    · simp [hlt, hlt.ne, Nat.lt_add_one_of_lt hlt]
    · simp
    · simp [hgt.not_gt, hgt.ne', hgt]

/-- Adding words with no bit in common carries nothing. -/
theorem add_eq_xor_of_and_eq_zero {x y : U64} (h : x &&& y = 0) : x + y = x ^^^ y := by
  rw [BitVec.add_eq_or_of_and_eq_zero x y h]
  apply BitVec.eq_of_getLsbD_eq
  intro i _
  have hbit : (x.getLsbD i && y.getLsbD i) = false := by
    rw [← BitVec.getLsbD_and, h]
    exact BitVec.getLsbD_zero
  rw [BitVec.getLsbD_or, BitVec.getLsbD_xor]
  revert hbit
  cases x.getLsbD i <;> cases y.getLsbD i <;> decide

/-- A block word is the full partial word: its sum puts each byte where the others are 0 (R43, R44). -/
theorem le64_eq_xorBytes (b : List Byte) : le64 b = xorBytes b 0 8 := by
  suffices h : ∀ n, n ≤ 8 →
      (List.range n).foldl (fun v i => v + (zext64 (b.getD i 0) <<< (8 * i))) 0 = xorBytes b 0 n from h 8 le_rfl
  intro n hn
  induction n with
  | zero => rfl
  | succ n ih =>
    have hdisjoint : xorBytes b 0 n &&& (zext64 (b.getD n 0) <<< (8 * n)) = 0 := by
      refine word_ext fun j hj => ?_
      rw [wordByte_and, wordByte_xorBytes _ _ _ hj, wordByte_byte_shiftLeft _ _ hj, wordByte_zero]
      split
      next hlt => rw [if_neg hlt.ne]; exact BitVec.and_zero
      next => exact BitVec.zero_and
    rw [List.range_succ, List.foldl_append, List.foldl_cons, List.foldl_nil, ih (by omega), add_eq_xor_of_and_eq_zero hdisjoint]
    simp only [xorBytes, List.range_succ, List.foldl_append, List.foldl_cons, List.foldl_nil, Nat.zero_add]

/-- Byte `j` of a block word is byte `j` of the block (R43). -/
theorem wordByte_le64 (b : List Byte) {j : Nat} (hj : j < 8) : wordByte (le64 b) j = b.getD j 0 := by
  rw [le64_eq_xorBytes, wordByte_xorBytes _ _ _ hj, if_pos hj, Nat.zero_add]

/-- Byte `i` of a word's output is byte `7-i` of the word (R45). -/
theorem getElem?_beBytes64 (x : U64) {i : Nat} (hi : i < 8) : (beBytes64 x)[i]? = some (x.extractLsb' (56 - 8 * i) 8) := by
  rw [beBytes64, List.getElem?_map, List.getElem?_range hi, Option.map_some]

/-- A word's output, reversed, is the word again. -/
theorem le64_reverse_beBytes64 (x : U64) : le64 (beBytes64 x).reverse = x := by
  refine word_ext fun j hj => ?_
  rw [wordByte_le64 _ hj, List.getD_eq_getElem?_getD, List.getElem?_reverse (by rw [length_beBytes64]; exact hj),
    length_beBytes64, getElem?_beBytes64 x (by omega), Option.getD_some, wordByte]
  congr 1
  omega

/-- Settles O29: the bytes of a block word and of a word's output, and the word of the output reversed. -/
theorem byteOrdersAreOpposite : Obligations.ByteOrdersAreOpposite := by
  refine ⟨fun b hb i hi => ?_, fun x i hi => getElem?_beBytes64 x hi, le64_reverse_beBytes64⟩
  have hbyte : (le64 b).extractLsb' (8 * i) 8 = b.getD i 0 := wordByte_le64 b hi
  rw [hbyte, List.getD_eq_getElem _ _ (by omega), List.getElem?_eq_getElem]

/-- A byte of a group of eight, out of bytes filled up with zeros. -/
theorem getD_take_drop_fill (t : List Byte) (first : Nat) {j : Nat} (hj : j < 8) :
    (((t ++ List.replicate 16 0).drop first).take 8).getD j 0 = t.getD (first + j) 0 := by
  simp only [List.getD_eq_getElem?_getD, List.getElem?_take_of_lt hj, List.getElem?_drop, List.getElem?_append,
    List.getElem?_replicate]
  split
  · rfl
  next hge => rw [List.getElem?_eq_none (Nat.not_lt.mp hge)]; split <;> rfl

/-- A partial word whose group ends where the bytes do is the block word of the group filled up with zeros (R44). -/
theorem xorBytes_eq_le64_fill (t : List Byte) {first count : Nat} (hcount : t.length - first ≤ count ∨ 8 ≤ count) :
    xorBytes t first count = le64 (((t ++ List.replicate 16 0).drop first).take 8) := by
  refine word_ext fun j hj => ?_
  rw [wordByte_xorBytes _ _ _ hj, wordByte_le64 _ hj, getD_take_drop_fill t first hj]
  split
  · rfl
  · rw [List.getD_eq_default _ _ (by omega)]

/-- Settles O30: the bytes that the counts leave out are those that are missing. -/
theorem tailWordsAreLittleEndian : Obligations.TailWordsAreLittleEndian :=
  fun t _ => ⟨xorBytes_eq_le64_fill t (first := 0) (by omega), xorBytes_eq_le64_fill t (.inl le_rfl)⟩

/-! ## Rotations -/

/-- A rotation moves bit `i` to bit `(i + r) mod 64`. -/
theorem getLsbD_rotl64 (x : U64) {r i : Nat} (hr : r < 64) (hi : i < 64) : (rotl64 x r).getLsbD ((i + r) % 64) = x.getLsbD i := by
  rw [rotl64_eq_rotateLeft x hr, BitVec.getLsbD_rotateLeft, Nat.mod_eq_of_lt hr]
  by_cases hwrap : i + r < 64
  · rw [Nat.mod_eq_of_lt hwrap]
    simp [hwrap]
  · rw [show (i + r) % 64 = i + r - 64 by omega]
    have h1 : i + r - 64 < r := by omega
    simp [h1, show 64 - r + (i + r - 64) = i by omega]

/-- Two rotations by 64 together give the word back. -/
theorem rotl64_rotl64_eq (x : U64) {r q : Nat} (hr : r < 64) (hq : q < 64) (hsum : r + q = 64) : rotl64 (rotl64 x r) q = x := by
  apply BitVec.eq_of_getLsbD_eq
  intro i hi
  have hback : ((i + r) % 64 + q) % 64 = i := by omega
  calc (rotl64 (rotl64 x r) q).getLsbD i
    _ = (rotl64 (rotl64 x r) q).getLsbD (((i + r) % 64 + q) % 64) := by rw [hback]
    _ = (rotl64 x r).getLsbD ((i + r) % 64) := getLsbD_rotl64 _ hq (Nat.mod_lt _ (by decide))
    _ = x.getLsbD i := getLsbD_rotl64 x hr hi

/-- Settles O35: the rotation by the rest of 64 undoes each, on both sides. -/
theorem rotationsAreBijections : Obligations.RotationsAreBijections := by
  intro r hr
  have hpos : 0 < r ∧ r < 64 := by omega
  refine ⟨fun x i hi => getLsbD_rotl64 x hpos.2 hi, fun y => ⟨rotl64 y (64 - r), ?_, ?_⟩⟩
  · exact rotl64_rotl64_eq y (by omega) hpos.2 (by omega)
  · rintro z rfl
    exact (rotl64_rotl64_eq z hpos.2 (by omega) (by omega)).symm

/-! ## Finalization -/

/-- The first accumulator takes the first group, if it has a byte (R121, C1). -/
theorem tailWords_fst (h1 h2 : U64) (t : List Byte) (n : Nat) :
    (tailWords h1 h2 t n).1 = if 1 ≤ n then h1 ^^^ mixK1 (xorBytes t 0 (min n 8)) else h1 := by
  unfold tailWords
  rfl

/-- The second accumulator takes the second group, if it has a byte (R121). -/
theorem tailWords_snd (h1 h2 : U64) (t : List Byte) (n : Nat) :
    (tailWords h1 h2 t n).2 = if 9 ≤ n then h2 ^^^ mixK2 (xorBytes t 8 (n - 8)) else h2 := by
  unfold tailWords
  rfl

/-- Without tail bytes the accumulators are taken as they are (R121). -/
theorem tailWords_zero (h1 h2 : U64) (t : List Byte) : tailWords h1 h2 t 0 = (h1, h2) :=
  Prod.ext (by rw [tailWords_fst, if_neg (by omega)]) (by rw [tailWords_snd, if_neg (by omega)])

/-- Settles O33: the two accumulators after the tail words, by the count. -/
theorem tailGroupsFoldedWhenPresent : Obligations.TailGroupsFoldedWhenPresent := by
  intro h1 h2 t _
  refine ⟨fun h0 => by rw [h0, tailWords_zero], fun h => ?_, fun h => ?_, fun h => ?_⟩
  · rw [tailWords_fst, if_pos h, mixK1_eq, c1, c2]
  · rw [tailWords_snd, if_neg (by omega)]
  · rw [tailWords_snd, if_pos h, mixK2_eq, c1, c2]

/-- Settles O34: the steps by definition, on the tail words of the pending bytes. -/
theorem finalizationSteps : Obligations.FinalizationSteps := by
  rintro g a b hwords x y u v rfl rfl rfl rfl
  have hfin : finalize g = avalanche a b g.totalLen := by
    rw [finalize, finalizeFrom, ← Digest.pending, hwords]
  rw [hfin]
  unfold avalanche
  rfl

/-- The state after SUM128. -/
theorem exec_sum128 (s : State) : exec .sum128 s = .next (respond (valueResponse (sum128Value (finalize s.digest))) s) := rfl

/-- The steps after the tail words keep 0 (R122). -/
theorem avalanche_zero : avalanche 0 0 0 = (0, 0) := by
  unfold avalanche fmix64
  decide

/-- The digest of reset is finalized to the pair of zeros (70_reset_and_hazards.md R171). -/
theorem finalize_reset (k : Nat) : finalize (Digest.reset k) = (0, 0) := by
  have hfields : finalize (Digest.reset k) = finalizeFrom 0 0 (memRead (Digest.reset k).tail 0 0) 0 0 := rfl
  rw [hfields, finalizeFrom, tailWords_zero, avalanche_zero]

/-- Settles O28: reset leaves nothing but zeros to finalize. -/
theorem freshEngineHashesToZero : Obligations.FreshEngineHashesToZero := by
  refine ⟨_, exec_sum128 State.reset, ?_⟩
  rw [respond_responses, show State.reset.digest = Digest.reset 0 from rfl, finalize_reset]
  rfl

/-- The low word of SUM128's response (R123). -/
theorem sum128Value_low (r : U64 × U64) : (sum128Value r).extractLsb' 0 64 = r.1 := by
  apply BitVec.eq_of_getLsbD_eq
  intro i hi
  have hwide : i < 128 := by omega
  simp [sum128Value, hi, hwide]

/-- The high word of SUM128's response (R123). -/
theorem sum128Value_high (r : U64 × U64) : (sum128Value r).extractLsb' 64 64 = r.2 := by
  apply BitVec.eq_of_getLsbD_eq
  intro i hi
  have hhigh : 64 + i < 128 := by omega
  simp [sum128Value, hi, hhigh]

/-- Of the words with a bare command's opcode only that command's own decodes (30_encoding.md R67). -/
theorem decode_error_of_opField {c : Command} {op : BitVec 4} {word : BitVec 64} (hop : opField c.cmd = op)
    (hbare : 2 < op.toNat) (hword : commandWord op 0 0 = word) (hne : c.cmd ≠ word) : ∃ e, decode c = .error e := by
  subst hop hword
  exact decode_error_of_ne_commandWord hbare hne

/-- Settles O23: the two words of the response, and the hash of the stream the digest stands for. -/
theorem sum128ReturnsHash : Obligations.Sum128ReturnsHash := by
  refine ⟨fun c hop hne => decode_error_of_opField hop (by decide) (by decide) hne, fun s => ?_⟩
  exact ⟨_, _, exec_sum128 s, rfl, rfl, sum128Value_low _, sum128Value_high _, fun stream hrep => hrep.finalize⟩

/-- Lanes 0 to 7 of SUM's response are the first word's bytes (R124). -/
theorem lane_sumBytes_low (r : U64 × U64) {j : Nat} (hj : j < 8) :
    lane (packLanes (sumBytes r)) j = r.1.extractLsb' (56 - 8 * j) 8 := by
  rw [lane_packLanes _ (by omega), sumBytes, List.getD_append _ _ _ _ (by rw [length_beBytes64]; exact hj),
    List.getD_eq_getElem?_getD, getElem?_beBytes64 _ hj, Option.getD_some]

/-- Lanes 8 to 15 of SUM's response are the second word's bytes (R124). -/
theorem lane_sumBytes_high (r : U64 × U64) {j : Nat} (hj : j < 8) :
    lane (packLanes (sumBytes r)) (8 + j) = r.2.extractLsb' (56 - 8 * j) 8 := by
  rw [lane_packLanes _ (by omega), sumBytes, List.getD_append_right _ _ _ _ (by rw [length_beBytes64]; omega),
    length_beBytes64, Nat.add_sub_cancel_left, List.getD_eq_getElem?_getD, getElem?_beBytes64 _ hj, Option.getD_some]

/-- Settles O24: the lanes of the response, byte by byte. -/
theorem sumReturnsBigEndianBytes : Obligations.SumReturnsBigEndianBytes := by
  refine ⟨fun c hop hne => decode_error_of_opField hop (by decide) (by decide) hne, fun s => ?_⟩
  exact ⟨_, _, exec_sum s, rfl, rfl, fun j hj => ⟨lane_sumBytes_low _ hj, lane_sumBytes_high _ hj⟩⟩

/-- Settles O26: both answer the pair that finalization gives. -/
theorem sumAgreesWithSum128 : Obligations.SumAgreesWithSum128 := by
  intro s
  refine ⟨_, _, _, _, exec_sum s, rfl, exec_sum128 s, rfl, ?_⟩
  rw [valueResponse, valueResponse, responseBytes_packLanes_sumBytes, sum128Value_low, sum128Value_high, sumBytes]

end Sys2Proof.Machine
